-- ==== Sys2Proof/Word.lean ====
section
/-! DEFINITION. The words of the block: bytes, the 16-bit word of the bus, and a group of eight like things (the
eight rows of a module). R9 numbers the bits of a byte 7 (most significant) down to 0, as BitVec does. -/

namespace Sys2Proof

/-- One byte (R9): a frame byte, a row of a glyph, a frame-buffer byte. -/
abbrev Byte := BitVec 8

/-- The 16-bit word a driver chip receives (R68 (a), R109). -/
abbrev Word16 := BitVec 16

/-- Eight like things in order, numbered 1..8 as the spec numbers rows (R10): the rows of a glyph, the row registers. -/
structure Eight (α : Type) where
  r1 : α
  r2 : α
  r3 : α
  r4 : α
  r5 : α
  r6 : α
  r7 : α
  r8 : α
deriving DecidableEq, Repr

/-- The thing numbered `i + 1`. -/
def Eight.get {α : Type} (g : Eight α) (i : Fin 8) : α :=
  match i with
  | 0 => g.r1
  | 1 => g.r2
  | 2 => g.r3
  | 3 => g.r4
  | 4 => g.r5
  | 5 => g.r6
  | 6 => g.r7
  | 7 => g.r8

/-- Eight things from the function that gives the one numbered `i + 1`. -/
def Eight.ofFn {α : Type} (f : Fin 8 → α) : Eight α :=
  ⟨f 0, f 1, f 2, f 3, f 4, f 5, f 6, f 7⟩

/-- The eight things as a sequence, number 1 first. -/
def Eight.toList {α : Type} (g : Eight α) : List α :=
  [g.r1, g.r2, g.r3, g.r4, g.r5, g.r6, g.r7, g.r8]

end Sys2Proof
end

