-- ==== Sys2Proof/Syntax.lean ====
section
/-! DEFINITION. The commands, one constructor per row of spec/opcode_table.json, as R108 decodes them. -/

namespace Sys2Proof

/-- The scroll modes, "mode ∈ {off, left, right, bounce}" (R23, R155). -/
inductive Mode where
  | off
  | left
  | right
  | bounce
deriving DecidableEq, Repr

/-- The rotate selector of a WRITE: absent, left or right (R98, R127). -/
inductive Rot where
  | none
  | left
  | right
deriving DecidableEq, Repr

/-- The six commands (R94). Every operand is one frame byte (R102), but for the fields of the opcode byte and for
codes the decoder has already turned into names. -/
inductive Instr where
  /-- INIT (R95): module count, select pin (absent where the frame is too short), intensity, scroll mode, delay. -/
  | init (nn pp : Option Byte) (ii : Byte) (mm : Mode) (dd : Byte)
  /-- SETSCROLL (R96): mode, delay. -/
  | setscroll (mm : Mode) (dd : Byte)
  /-- CLEAR (R97). -/
  | clear
  /-- WRITE (R98): rotate selector, invert flag, glyph records; the length byte of a record is its number of bytes. -/
  | write (rot : Rot) (inv : Bool) (records : List (List Byte))
  /-- SETINT (R99): intensity. -/
  | setint (vv : Byte)
  /-- SETPWR (R100): on or off. -/
  | setpwr (p : Bool)
deriving DecidableEq, Repr

end Sys2Proof
end

