-- ==== Sys2Proof/WellFormed.lean ====
section
/-! DEFINITION. Which terms are commands some frame stands for: the checks a term must pass beyond its type. -/

namespace Sys2Proof

/-- INIT's absent operands are trailing ones, and an absent operand has its default (R95: "Absent trailing bytes take
the defaults"; "A non-trailing operand cannot be omitted"). -/
def Instr.initOperandsOk (nn pp : Option Byte) (ii : Byte) (mm : Mode) (dd : Byte) : Bool :=
  match nn, pp with
  | some _, some _ => true
  | none, some _ => false
  | _, none => decide (ii = 1) && decide (mm = Mode.off) && decide (dd = 0)

/-- A WRITE has at most 255 records of at most 255 bytes: the count and each length are one byte (R98). -/
def Instr.recordsOk (records : List (List Byte)) : Bool :=
  decide (records.length ≤ 255) && records.all fun r => decide (r.length ≤ 255)

/-- The well-formed commands: exactly those some frame decodes to. -/
def Instr.wellFormed : Instr → Bool
  | .init nn pp ii mm dd => Instr.initOperandsOk nn pp ii mm dd
  | .setscroll _ _ => true
  | .clear => true
  | .write _ _ records => Instr.recordsOk records
  | .setint _ => true
  | .setpwr _ => true

end Sys2Proof
end

