-- ==== Sys2Proof/Decode.lean ====
section
/-! DEFINITION. The decoder of command frames (R90 to R108), total on any bytes, rejecting by name; the encoder, from
the same tables; and the host's view of both through the bit numbering of spec/opcode_table.json. -/

namespace Sys2Proof

/-- Why a frame is not a command. Each is the spec's `Illegal` and raises IllegalCommand (R104, R105, R215). -/
inductive Illegal where
  /-- a frame of no bytes: R90 has n ≥ 1, so the port never delivers it -/
  | emptyFrame
  /-- b0 matches no row of R94 (R104 (a)) -/
  | unknownOpcode
  /-- the frame length does not fit the format (R104 (b)) -/
  | badLength
  /-- the glyph records do not exactly fill the frame (R104 (c)) -/
  | badRecords
  /-- MM ≥ 4 (R105) -/
  | reservedMode
  /-- rr = 11 (R105) -/
  | reservedRotate
deriving DecidableEq, Repr

/-- The scroll mode a mode byte stands for; 4..255 are reserved (R96, R105). -/
def modeOf (b : Byte) : Option Mode :=
  if b = 0 then some .off
  else if b = 1 then some .left
  else if b = 2 then some .right
  else if b = 3 then some .bounce
  else none

/-- The rotate selector rr = b0[1:0]; 11 is reserved (R98, R105). -/
def rotOf (b0 : Byte) : Option Rot :=
  if b0 &&& 0x03 = 0x00 then some .none
  else if b0 &&& 0x03 = 0x01 then some .left
  else if b0 &&& 0x03 = 0x02 then some .right
  else none

/-- G glyph records that exactly fill the bytes: a length byte, then that many data bytes, G times (R98). -/
def parseRecords : Nat → List Byte → Option (List (List Byte))
  | 0, [] => some []
  | 0, _ :: _ => none
  | _ + 1, [] => none
  | g + 1, len :: rest =>
    if len.toNat ≤ rest.length then
      (parseRecords g (rest.drop len.toNat)).map (rest.take len.toNat :: ·)
    else none

/-- The operands of INIT (R95, R108): the frame may stop after any byte, absent trailing bytes take the defaults. -/
def decodeInit : List Byte → Except Illegal Instr
  | [] => .ok (.init none none 1 .off 0)
  | [n] => .ok (.init (some n) none 1 .off 0)
  | [n, p] => .ok (.init (some n) (some p) 1 .off 0)
  | [n, p, i] => .ok (.init (some n) (some p) i .off 0)
  | [n, p, i, m] =>
    match modeOf m with
    | some mm => .ok (.init (some n) (some p) i mm 0)
    | none => .error .reservedMode
  | [n, p, i, m, d] =>
    match modeOf m with
    | some mm => .ok (.init (some n) (some p) i mm d)
    | none => .error .reservedMode
  | _ => .error .badLength

/-- The operands of SETSCROLL (R96). -/
def decodeSetscroll : List Byte → Except Illegal Instr
  | [m, d] =>
    match modeOf m with
    | some mm => .ok (.setscroll mm d)
    | none => .error .reservedMode
  | _ => .error .badLength

/-- The operands of WRITE and the fields of its opcode byte (R98): `i` is b0[2], `rr` is b0[1:0]. -/
def decodeWrite (b0 : Byte) (ops : List Byte) : Except Illegal Instr :=
  match rotOf b0 with
  | none => .error .reservedRotate
  | some rot =>
    match ops with
    | [] => .error .badLength
    | g :: rest =>
      match parseRecords g.toNat rest with
      | none => .error .badRecords
      | some records => .ok (.write rot (b0.getLsbD 2) records)

/-- `decode(frame)` of R108, each row of R94 by its match and mask. -/
def decode : List Byte → Except Illegal Instr
  | [] => .error .emptyFrame
  | b0 :: ops =>
    if b0 = 0x10 then decodeInit ops
    else if b0 = 0x20 then decodeSetscroll ops
    else if b0 = 0x30 then (match ops with | [] => .ok .clear | _ => .error .badLength)
    else if b0 &&& 0xF8 = 0x40 then decodeWrite b0 ops
    else if b0 = 0x50 then (match ops with | [v] => .ok (.setint v) | _ => .error .badLength)
    else if b0 &&& 0xFE = 0x60 then
      (match ops with | [] => .ok (.setpwr (b0.getLsbD 0)) | _ => .error .badLength)
    else .error .unknownOpcode

/-- The mode byte of a scroll mode (R23, R96). -/
def modeByte : Mode → Byte
  | .off => 0
  | .left => 1
  | .right => 2
  | .bounce => 3

/-- The field rr of a rotate selector (R98). -/
def rotByte : Rot → Byte
  | .none => 0x00
  | .left => 0x01
  | .right => 0x02

/-- One glyph record: the length byte, then the data bytes (R98). -/
def encodeRecord (r : List Byte) : List Byte := BitVec.ofNat 8 r.length :: r

/-- The opcode byte of WRITE: `0100 0 i r1 r0` (R94, R98). -/
def writeOpcode (rot : Rot) (inv : Bool) : Byte :=
  0x40 ||| (if inv then 0x04 else 0x00) ||| rotByte rot

/-- The frame of a well-formed command (R95 to R100). INIT with both mandatory operands is written with all six bytes,
the optional ones too (log 18). -/
def encode : Instr → List Byte
  | .init (some n) (some p) ii mm dd => [0x10, n, p, ii, modeByte mm, dd]
  | .init (some n) none _ _ _ => [0x10, n]
  | .init none _ _ _ _ => [0x10]
  | .setscroll mm dd => [0x20, modeByte mm, dd]
  | .clear => [0x30]
  | .write rot inv records =>
    writeOpcode rot inv :: BitVec.ofNat 8 records.length :: records.flatMap encodeRecord
  | .setint vv => [0x50, vv]
  | .setpwr p => [if p then 0x61 else 0x60]

/-- `l` continued with zero bytes up to `n` bytes. -/
def padTo (n : Nat) (l : List Byte) : List Byte := l ++ List.replicate (n - l.length) 0

/-- `g` glyph records read from `l`, continued with zero bytes where `l` ends. -/
def padRecords : Nat → List Byte → List Byte
  | 0, l => l
  | g + 1, [] => 0 :: padRecords g []
  | g + 1, len :: rest => len :: (padTo len.toNat (rest.take len.toNat) ++ padRecords g (rest.drop len.toNat))

/-- The operand bytes of an opcode byte, continued with zero operands up to the length of its format (R92). -/
def padOperands (b0 : Byte) (ops : List Byte) : List Byte :=
  if b0 = 0x10 then padTo 5 ops
  else if b0 = 0x20 then padTo 2 ops
  else if b0 &&& 0xF8 = 0x40 then
    (match ops with
      | [] => [0]
      | g :: rest => g :: padRecords g.toNat rest)
  else if b0 = 0x50 then padTo 1 ops
  else ops

/-- The frame an opcode-table word stands for: byte k of the frame is bits 8k+7..8k of `w`, b0 first (R90), and every
bit above `nbits` is 0, up to the length of the format (log 14). -/
def tableFrame (nbits w : Nat) : List Byte :=
  match (List.range ((nbits + 7) / 8)).map fun k => BitVec.ofNat 8 (w / 256 ^ k) with
  | [] => []
  | b0 :: ops => b0 :: padOperands b0 ops

/-- The command the decoder reads from an opcode-table word, none where it refuses. -/
def decodeTableWord (nbits w : Nat) : Option Instr :=
  match decode (tableFrame nbits w) with
  | .ok i => some i
  | .error _ => none

end Sys2Proof
end

