-- ==== Sys2Proof/Config.lean ====
section
/-! DEFINITION. The parameters of one instance of the block (R6, R196, R197; 92_eei_decisions.md D4, D14, D16) and
the one free value, the arbitration the spec leaves open (R76, D8). -/

namespace Sys2Proof

/-- The parameters a hardware instance fixes. They are no state (R42): no step changes them. -/
structure Config where
  /-- NMAX, the largest module count the block accepts (R6). -/
  nmax : Nat
  /-- GMAX, the largest glyph count of one WRITE (R6). -/
  gmax : Nat
  /-- ROTSWAP, the calibration constant of the rotations (R125). -/
  rotswap : Bool
  /-- REG_ROW(1..8), the row registers (R183, R196). -/
  regRow : Eight Byte
  /-- REG_DECODE (R196). -/
  regDecode : Byte
  /-- REG_INTENSITY (R196). -/
  regIntensity : Byte
  /-- REG_SCANLIMIT (R196). -/
  regScanLimit : Byte
  /-- REG_SHUTDOWN (R196). -/
  regShutdown : Byte
  /-- REG_DISPTEST (R196). -/
  regDispTest : Byte
  /-- VAL_DECODE_OFF (R197). -/
  valDecodeOff : Byte
  /-- VAL_TEST_OFF (R197). -/
  valTestOff : Byte
  /-- VAL_PWR_ON (R197). -/
  valPwrOn : Byte
  /-- VAL_PWR_OFF (R197). -/
  valPwrOff : Byte
deriving DecidableEq, Repr

namespace Config

/-- LMAX = 8·GMAX, the capacity of the frame buffer in bytes (R6). -/
def lmax (p : Config) : Nat := 8 * p.gmax

/-- REG_NOOP: the one register number DOC0 gives (R196); never in a SendWord, only in the expansion of R73. -/
def regNoop : Byte := 0x00

/-- The data byte of the scan limit register, "fixed at 7 = all 8 rows active" (R197). -/
def valScanLimit : Byte := 7

/-- The thirteen register numbers the block sends to (R196). -/
def registers (p : Config) : List Byte :=
  p.regRow.toList ++ [p.regDecode, p.regIntensity, p.regScanLimit, p.regShutdown, p.regDispTest]

/-- The parameter values of which the spec describes an instance: the ranges of R6, and R196's "The eight REG_ROW
values must be distinct from each other and from the other five" and "The block never emits REG_NOOP in a SendWord", so
none of the thirteen is the no-op's number. Anything else is refused (93 V8, log 2). -/
def valid (p : Config) : Bool :=
  decide (1 ≤ p.nmax) && decide (p.nmax ≤ p.gmax) && decide (p.gmax ≤ 255)
    && decide p.regRow.toList.Nodup
    && decide (∀ r ∈ [p.regDecode, p.regIntensity, p.regScanLimit, p.regShutdown, p.regDispTest],
        r ∉ p.regRow.toList)
    && decide (regNoop ∉ p.registers)

/-- The defaults: NMAX = GMAX = 255, ROTSWAP = false (R6), and the register numbers and data bytes of R196 and R197,
which the spec itself takes from general knowledge of the MAX7219 (93 G2, G3). PRESUMED (log 16), unsafe for a block
calibrated otherwise; no statement rests on a default. -/
def default : Config where
  nmax := 255
  gmax := 255
  rotswap := false
  regRow := ⟨0x01, 0x02, 0x03, 0x04, 0x05, 0x06, 0x07, 0x08⟩
  regDecode := 0x09
  regIntensity := 0x0A
  regScanLimit := 0x0B
  regShutdown := 0x0C
  regDispTest := 0x0F
  valDecodeOff := 0x00
  valTestOff := 0x00
  valPwrOn := 0x01
  valPwrOff := 0x00

/-- FREE VALUE (log 6, safe): whether the command goes first the k-th time that a command and a pass can both start
and nothing else says which (R76: "the block may start either; the spec does not say which"). -/
opaque commandFirst : Nat → Bool

end Config

end Sys2Proof
end

