-- ==== Sys2Proof/Machine/State.lean ====
section
/-! DEFINITION. The state of the block (10_state.md) as plain data, and the state right after reset (R241). Field by
field the inventory of INVENTORY.md's State heading. -/

namespace Sys2Proof.Machine

open Sys2Proof

/-- The scroll direction, "direction ∈ {-1,0,+1}" (R26). -/
inductive Dir where
  | minus
  | zero
  | plus
deriving DecidableEq, Repr

/-- The errors a command can raise (R211). -/
inductive Err where
  | configurationError
  | invalidGlyph
  | outOfRangeIntensity
  | illegalCommand
  | notInitialized
  | contentTooLong
deriving DecidableEq, Repr

/-- What the response port says of one frame (R111). -/
inductive Code where
  | ok
  | error (e : Err)
deriving DecidableEq, Repr

/-- One output event, SendWord(m, reg, d): module number 1..N, register byte, data byte (R72). -/
structure SendWord where
  m : Nat
  reg : Byte
  d : Byte
deriving DecidableEq, Repr

/-- Which command is executing, the k of CMD(k) (R30). -/
inductive CmdKind where
  | init
  | setscroll
  | clear
  | write
  | setint
  | setpwr
deriving DecidableEq, Repr

/-- One step of a command that runs phase by phase: the steps the spec calls atomic (R142, R165, R198) and one
emission of a broadcast (R195). -/
inductive Phase where
  /-- INIT's first step: N, PIN, MODE and DELAY together (R198) -/
  | configure (n pin : Byte) (mode : Mode) (delay : Byte)
  /-- P1 of a commit: LOCK <- 1 (R142) -/
  | lock
  /-- P2 of a commit: FB and LEN (R142) -/
  | replace (content : List Byte)
  /-- P3 of a commit: ScrollReset (R142) -/
  | scrollReset
  /-- P4 of a commit: LOCK <- 0 (R142) -/
  | unlock
  /-- INIT's step TICKPEND <- 0, INITED <- 1 (R198) -/
  | start
  /-- SETSCROLL's one step: MODE, DELAY and ScrollReset together (R165) -/
  | setScroll (mode : Mode) (delay : Byte)
  /-- one SendWord of a broadcast (R195) -/
  | send (w : SendWord)
deriving DecidableEq, Repr

/-- The activity register ACT (R30, R45). -/
inductive Act where
  /-- nothing in progress -/
  | idle
  /-- CMD(k): the phases still to do, the next first; when none is left the response is still to come -/
  | cmd (k : CmdKind) (todo : List Phase)
  /-- SCAN(m, r): the next transaction of the pass is module `m`, row `r + 1` -/
  | scan (m : Nat) (r : Fin 8)
deriving DecidableEq, Repr

/-- How a choice of the block's next operation is resolved (R76), and whether a command runs whole or phase by phase
(R143). It says nothing where only one operation can go on. -/
inductive Choice where
  /-- the command first, in one step -/
  | command
  /-- the command first, phase by phase -/
  | commandPhased
  /-- the pass first -/
  | pass
deriving DecidableEq, Repr

/-- What happens next, outside or inside (log 5). -/
inductive Move where
  /-- SCHED fires: one pulse on `tick` (R176) -/
  | tick
  /-- HOST offers one byte, with `cmd_last` (R91) -/
  | byte (b : Byte) (last : Bool)
  /-- BUS holds `tx_ready` low, nothing moves (R72, R180) -/
  | stall
  /-- `rst` is asserted (R240, R242) -/
  | rst
  /-- the block takes one step of its own -/
  | run (c : Choice)
deriving DecidableEq, Repr

/-- The frame buffer's bytes: (flat index, byte), indices strictly rising. An index that is not listed holds no byte
(log 3: the spec leaves it unspecified, R241, V1). -/
abbrev Memory := List Host.Cell

/-- The state of the block. -/
structure State where
  /-- the parameters of this instance (R6): no state of the block, no step changes them (log 1) -/
  cfg : Config
  /-- INITED (R22) -/
  inited : Bool
  /-- N, the module count (R20) -/
  n : Byte
  /-- PIN, the select-pin identifier (R21) -/
  pin : Byte
  /-- MODE (R23) -/
  mode : Mode
  /-- DELAY (R24) -/
  delay : Byte
  /-- OFF (R25), an integer (R11, log 15) -/
  off : Int
  /-- DIR (R26) -/
  dir : Dir
  /-- CNT (R27) -/
  cnt : Byte
  /-- LEN (R28), a number (log 15) -/
  len : Nat
  /-- FB (R28) -/
  fb : Memory
  /-- LOCK (R29) -/
  lock : Bool
  /-- ACT (R30) -/
  act : Act
  /-- TICKPEND (R32) -/
  tickPend : Bool
  /-- E (R33), an integer (log 15) -/
  e : Int
  /-- ERRFLAGS (R34), flag c in bit c − 1 -/
  errFlags : BitVec 6
  /-- the output trace (R69), oldest first -/
  trace : List SendWord
  /-- the response codes sent (R91, R257), oldest first -/
  responses : List Code
  /-- the bytes of a frame the port has begun to receive (R91), byte 0 first -/
  rx : List Byte
  /-- a complete frame whose execution has not started (R91, R46) -/
  frame : Option (List Byte)
  /-- the model's own: what happens next, oldest first (log 5); a finite list, so HOST is eventually quiet, the premise
  of R256 the model takes (log 22) -/
  sched : List Move
  /-- the model's own: how many choices the free value has made (log 6) -/
  arb : Nat
deriving DecidableEq, Repr

/-- Why the machine stops. No state a run from reset reaches does (Inv in Safety.lean). -/
inductive Fault where
  /-- raised by FBRead of an index within 1..LEN that holds no byte; safe (log 3) -/
  | unwrittenRead
  /-- raised by phase P2 of a commit of more than LMAX bytes, which R140 says no caller makes; safe (log 11) -/
  | beyondCapacity
deriving DecidableEq, Repr

/-- Why the machine refuses to step. -/
inductive Refusal where
  /-- raised by an arm of exec for a command that has no meaning yet; safe. No arm does. -/
  | notModelled (mnemonic : String)
  /-- raised by every step of an instance whose parameters are outside their ranges: "refuse: the spec describes no
  such instance" (93 V8), or a register numbered as the no-op (R196); safe (log 2) -/
  | noSuchInstance
deriving DecidableEq, Repr

namespace State

/-- The state after hardware reset of the instance with parameters `p` (R241). FB: no byte (log 3). E: 0, DESIGN
CHOICE, the spec says "unspecified" (log 4). -/
def resetOf (p : Config) : State where
  cfg := p
  inited := false
  n := 0
  pin := 0
  mode := .off
  delay := 0
  off := 0
  dir := .zero
  cnt := 0
  len := 0
  fb := []
  lock := false
  act := .idle
  tickPend := false
  e := 0
  errFlags := 0
  trace := []
  responses := []
  rx := []
  frame := none
  sched := []
  arb := 0

/-- The machine right after reset, with the default parameters of R6. -/
def reset : State := resetOf Config.default

end State

end Sys2Proof.Machine
end

