-- ==== Sys2Proof/Machine/Geometry.lean ====
section
/-! DEFINITION. Byte geometry and the glyph compositor (40_geometry.md): pure functions, no state, no errors. -/

namespace Sys2Proof.Machine

open Sys2Proof

/-- A glyph: exactly 8 bytes, row 1 first (R127). -/
abbrev Glyph := Eight Byte

/-- The byte whose bit k is `f k`. -/
def byteOfBits (f : Fin 8 → Bool) : Byte :=
  BitVec.ofBool (f 7) ++ BitVec.ofBool (f 6) ++ BitVec.ofBool (f 5) ++ BitVec.ofBool (f 4)
    ++ BitVec.ofBool (f 3) ++ BitVec.ofBool (f 2) ++ BitVec.ofBool (f 1) ++ BitVec.ofBool (f 0)

/-- `reverseBits(b)[k] = b[7 - k]` (R120). -/
def reverseBits (b : Byte) : Byte := byteOfBits fun k => b.getLsbD (7 - k.val)

/-- `rotL(a)[r][k] = a[k + 1][8 - r]`, r = 1..8 (R122). Here the row r is `r.val + 1`. -/
def rotL (a : Glyph) : Glyph :=
  Eight.ofFn fun r => byteOfBits fun k => (a.get k).getLsbD (8 - (r.val + 1))

/-- `rotR(a)[r][k] = a[8 - k][r - 1]`, r = 1..8 (R123). Here the row r is `r.val + 1`, and row 8 − k is the one
`Fin.rev k` numbers. -/
def rotR (a : Glyph) : Glyph :=
  Eight.ofFn fun r => byteOfBits fun k => (a.get k.rev).getLsbD ((r.val + 1) - 1)

/-- `rotateMatrix(a, left)` (R124); which quarter turn that is, ROTSWAP says (R125). -/
def rotateLeft (rotswap : Bool) (a : Glyph) : Glyph := if rotswap then rotR a else rotL a

/-- `rotateMatrix(a, right)` (R124). -/
def rotateRight (rotswap : Bool) (a : Glyph) : Glyph := if rotswap then rotL a else rotR a

/-- h_i of R129: the glyph after the rotation the WRITE asks for. -/
def rotate (rotswap : Bool) (rot : Rot) (g : Glyph) : Glyph :=
  match rot with
  | .none => g
  | .left => rotateLeft rotswap g
  | .right => rotateRight rotswap g

/-- The half turn H of R126 (c), `H(a)[9 − k] = reverseBits(a[k])`: what `invert` makes of one block. -/
def halfTurn (a : Glyph) : Glyph := Eight.ofFn fun r => reverseBits (a.get r.rev)

/-- The 8 bytes glyph `g` places (R129). -/
def composeBlock (rotswap : Bool) (rot : Rot) (inv : Bool) (g : Glyph) : List Byte :=
  let h := rotate rotswap rot g
  (if inv then halfTurn h else h).toList

/-- `compose(glyphs, rot, inv)` (R127 to R131): the glyphs' blocks in order. -/
def compose (rotswap : Bool) (rot : Rot) (inv : Bool) (glyphs : List Glyph) : List Byte :=
  glyphs.flatMap (composeBlock rotswap rot inv)

end Sys2Proof.Machine
end

