-- ==== Sys2Proof/Machine/Operands.lean ====
section
/-! DEFINITION. The checks of the commands' operands, each answering the first error of R217's order that applies, or
the operands made ready. They read the state and write nothing (R223). -/

namespace Sys2Proof.Machine

open Sys2Proof

/-- Every command but INIT needs INITED = 1 (R216). -/
def checkInited (s : State) : Except Err Unit :=
  if s.inited then .ok () else .error .notInitialized

/-- An intensity operand: 0..15 is accepted, anything else rejected, never clamped (R201, R221). -/
def checkIntensity (v : Byte) : Except Err Unit :=
  if v.toNat ≤ 15 then .ok () else .error .outOfRangeIntensity

/-- INIT's checks 2 to 4 (R198, R217, R218): both mandatory operands, 1 ≤ NN ≤ NMAX, the intensity. -/
def checkInit (nn pp : Option Byte) (ii : Byte) (s : State) : Except Err (Byte × Byte) :=
  match nn, pp with
  | some n, some p =>
    if 1 ≤ n.toNat ∧ n.toNat ≤ s.cfg.nmax then
      match checkIntensity ii with
      | .ok _ => .ok (n, p)
      | .error e => .error e
    else .error .configurationError
  | _, _ => .error .configurationError

/-- The glyph of a record of exactly 8 bytes (R98, R220). -/
def glyphOf : List Byte → Option Glyph
  | [a, b, c, d, e, f, g, h] => some ⟨a, b, c, d, e, f, g, h⟩
  | _ => none

/-- The glyphs of the records, if every record has exactly 8 bytes (R220). -/
def glyphsOf : List (List Byte) → Option (List Glyph)
  | [] => some []
  | r :: rest =>
    match glyphOf r, glyphsOf rest with
    | some g, some gs => some (g :: gs)
    | _, _ => none

/-- WRITE's checks 2 to 4 (R145, R217): INITED, G ≤ GMAX, every len = 8. -/
def checkWrite (records : List (List Byte)) (s : State) : Except Err (List Glyph) :=
  match checkInited s with
  | .error e => .error e
  | .ok _ =>
    if records.length ≤ s.cfg.gmax then
      match glyphsOf records with
      | some glyphs => .ok glyphs
      | none => .error .invalidGlyph
    else .error .contentTooLong

/-- SETINT's checks (R200): INITED, then the intensity. -/
def checkSetint (v : Byte) (s : State) : Except Err Unit :=
  match checkInited s with
  | .error e => .error e
  | .ok _ => checkIntensity v

end Sys2Proof.Machine
end

