-- ==== Sys2Proof/Machine/Flags.lean ====
section
/-! DEFINITION. The flags and coded registers: the six sticky error flags (R34), the response codes (R111), the bit
patterns of MODE (R23) and DIR (R26). -/

namespace Sys2Proof.Machine

open Sys2Proof

/-- The number of an error (R211): its response code and its flag's number. -/
def Err.number : Err → Nat
  | .configurationError => 1
  | .invalidGlyph => 2
  | .outOfRangeIntensity => 3
  | .illegalCommand => 4
  | .notInitialized => 5
  | .contentTooLong => 6

/-- The four bits of `rsp_code` (R111). -/
def Code.bits : Code → BitVec 4
  | .ok => 0
  | .error e => BitVec.ofNat 4 e.number

/-- The flag of error `e` in ERRFLAGS: flag c stands in bit c − 1 of the six (R34, log 19). -/
def errMask (e : Err) : BitVec 6 := 1#6 <<< (e.number - 1)

/-- `ERRFLAGS[c] <- 1` (R214): sets one flag and keeps the others. -/
def setErrFlag (e : Err) (f : BitVec 6) : BitVec 6 := f ||| errMask e

/-- Whether the flag of error `e` is set. -/
def errFlag (e : Err) (f : BitVec 6) : Bool := f.getLsbD (e.number - 1)

/-- The two bits of the MODE register (R23). -/
def modeBits : Mode → BitVec 2
  | .off => 0
  | .left => 1
  | .right => 2
  | .bounce => 3

/-- The two bits of the DIR register, two's complement; 0b10 never occurs (R26). -/
def dirBits : Dir → BitVec 2
  | .zero => 0b00
  | .plus => 0b01
  | .minus => 0b11

end Sys2Proof.Machine
end

