-- ==== Sys2Proof/Machine/Ops.lean ====
section
/-! DEFINITION. The named operations over the frame buffer, the output, the response port and the scroll state that
every command and the scan-out share. -/

namespace Sys2Proof.Machine

open Sys2Proof

/-- Go on with `f` after a next state; a fault or a refusal ends. -/
def andThen (o : Host.Outcome State Fault Refusal) (f : State → Host.Outcome State Fault Refusal) :
    Host.Outcome State Fault Refusal :=
  match o with
  | .next s => f s
  | .fault r => .fault r
  | .refused r => .refused r

/-- C = 8·N, the column count: an expression, not a register (R20). -/
def State.c (s : State) : Nat := 8 * s.n.toNat

/-! ## The frame buffer (20_memory.md) -/

/-- The byte held at an index, none where none is held. -/
def Memory.read (m : Memory) (a : Nat) : Option Byte := m.lookup a

/-- The cells that hold the bytes at `i`, `i + 1`, … -/
def cellsFrom : Nat → List Byte → Memory
  | _, [] => []
  | i, b :: rest => (i, b) :: cellsFrom (i + 1) rest

/-- FB[1..len(content)] = content and no other byte: the buffer is "replaced wholesale" (R66, R142). What the physical
bytes above the content hold the spec leaves unspecified (V1, log 3). -/
def Memory.ofContent (content : List Byte) : Memory := cellsFrom 1 content

/-- The canonical form: indices strictly rising. -/
def Memory.wf : Memory → Bool
  | [] => true
  | [_] => true
  | a :: b :: rest => decide (a.1 < b.1) && Memory.wf (b :: rest)

/-- Every index held lies in the buffer, 1..`cap` (R61). -/
def Memory.within (m : Memory) (cap : Nat) : Bool := m.all fun x => decide (1 ≤ x.1) && decide (x.1 ≤ cap)

/-- `FBRead(idx)` (R64), for any integer: the byte within 1..LEN, the blank byte 0x00 outside. None only where an
index within 1..LEN holds no byte (log 3). -/
def fbRead (s : State) (idx : Int) : Option Byte :=
  if 1 ≤ idx ∧ idx ≤ s.len then s.fb.read idx.toNat else some 0x00

/-! ## The output and the response port -/

/-- `emit SendWord(m, reg, d)` (R69, R72): append one event to the output trace. -/
def emit (w : SendWord) (s : State) : State := { s with trace := s.trace ++ [w] }

/-- The events of `Broadcast(reg, d)` to `n` modules, ascending from module 1 (R195). -/
def broadcastWords (n : Nat) (reg d : Byte) : List SendWord :=
  (List.range n).map fun j => { m := j + 1, reg := reg, d := d }

/-- `Broadcast(reg, d)` (R195): one SendWord per module. -/
def broadcast (reg d : Byte) (s : State) : State :=
  { s with trace := s.trace ++ broadcastWords s.n.toNat reg d }

/-- `respond OK` (R12, R91): response code 0, and the command ends. -/
def respondOk (s : State) : State :=
  { s with responses := s.responses ++ [.ok], act := .idle }

/-- `raise X` (R214), the whole of taking an error: the sticky flag, the response code, ACT back to IDLE, and no other
register. There is no handler, nothing is saved and nothing returns: "the next frame is simply taken". -/
def raise (e : Err) (s : State) : State :=
  { s with
    errFlags := setErrFlag e s.errFlags
    responses := s.responses ++ [.error e]
    act := .idle }

/-! ## The scroll reset (R157) -/

/-- OFF after a reset (R156). -/
def resetOff (mode : Mode) (len : Nat) : Int :=
  match mode with
  | .off => 0
  | .left => len
  | .right => 0
  | .bounce => len

/-- DIR after a reset (R156). -/
def resetDir (mode : Mode) : Dir :=
  match mode with
  | .off => .zero
  | .left => .minus
  | .right => .plus
  | .bounce => .minus

/-- `ScrollReset()` (R157): OFF, DIR and CNT in one atomic step. -/
def scrollReset (s : State) : State :=
  { s with off := resetOff s.mode s.len, dir := resetDir s.mode, cnt := s.delay }

/-! ## The commit (R140 to R144) -/

/-- P1: LOCK <- 1. -/
def lockBuffer (s : State) : State := { s with lock := true }

/-- P2: FB[1..len(content)] <- content, LEN <- len(content), in one step (R142). The buffer has LMAX bytes (R28): a
longer content, which no caller gives (R140), has no place to go and stops the model (log 11). -/
def replaceBuffer (content : List Byte) (s : State) : Host.Outcome State Fault Refusal :=
  if content.length ≤ s.cfg.lmax then
    .next { s with fb := Memory.ofContent content, len := content.length }
  else .fault .beyondCapacity

/-- P4: LOCK <- 0. -/
def unlockBuffer (s : State) : State := { s with lock := false }

/-- `commit(content)` (R142): the phases P1 to P4 in order. -/
def commit (content : List Byte) (s : State) : Host.Outcome State Fault Refusal :=
  andThen (replaceBuffer content (lockBuffer s)) fun t => .next (unlockBuffer (scrollReset t))

/-- `zeros(n)` (R10). -/
def zeros (n : Nat) : List Byte := List.replicate n 0x00

/-! ## Atomic register writes of single commands -/

/-- INIT's first step: N, PIN, MODE and DELAY together (R198). -/
def configure (n pin : Byte) (mode : Mode) (delay : Byte) (s : State) : State :=
  { s with n := n, pin := pin, mode := mode, delay := delay }

/-- INIT's step TICKPEND <- 0, INITED <- 1 (R198). -/
def startRun (s : State) : State := { s with tickPend := false, inited := true }

/-- MODE <- MM, DELAY <- DD, ScrollReset(), one atomic step (R165). -/
def setScroll (mode : Mode) (delay : Byte) (s : State) : State :=
  scrollReset { s with mode := mode, delay := delay }

end Sys2Proof.Machine
end

