-- ==== Sys2Proof/Machine/Commit.lean ====
section
/-! DEFINITION. The commands that rewrite the frame buffer: WRITE (R145, R146) and CLEAR (R147). -/

namespace Sys2Proof.Machine

open Sys2Proof

/-- WRITE (R145): the checks in order, then compose, commit, respond OK. On an error nothing is written. -/
def execWrite (rot : Rot) (inv : Bool) (records : List (List Byte)) (s : State) :
    Host.Outcome State Fault Refusal :=
  match checkWrite records s with
  | .error e => .next (raise e s)
  | .ok glyphs =>
    andThen (commit (compose s.cfg.rotswap rot inv glyphs) s) fun t => .next (respondOk t)

/-- CLEAR (R147): commit C zero bytes. It emits nothing: the next pass blanks the display. -/
def execClear (s : State) : Host.Outcome State Fault Refusal :=
  match checkInited s with
  | .error e => .next (raise e s)
  | .ok _ => andThen (commit (zeros s.c) s) fun t => .next (respondOk t)

end Sys2Proof.Machine
end

