-- ==== Sys2Proof/Machine/Configure.lean ====
section
/-! DEFINITION. The configuration commands (44_config.md): INIT (R198), SETINT (R200), SETPWR (R202). -/

namespace Sys2Proof.Machine

open Sys2Proof

/-- The data byte of the shutdown register (R197, R202). -/
def powerByte (p : Config) (on : Bool) : Byte := if on then p.valPwrOn else p.valPwrOff

/-- The five broadcasts that end INIT, in DOC0's listing order (R198). -/
def initBroadcasts (ii : Byte) (s : State) : State :=
  broadcast s.cfg.regShutdown s.cfg.valPwrOn
    (broadcast s.cfg.regIntensity ii
      (broadcast s.cfg.regDispTest s.cfg.valTestOff
        (broadcast s.cfg.regDecode s.cfg.valDecodeOff
          (broadcast s.cfg.regScanLimit Config.valScanLimit s))))

/-- INIT (R198, R199), the one command that does not need INITED = 1: configure, create the buffer by a commit of
8·NN zeros, start, set the chips up, respond OK. A failing INIT writes nothing but ERRFLAGS. -/
def execInit (nn pp : Option Byte) (ii : Byte) (mm : Mode) (dd : Byte) (s : State) :
    Host.Outcome State Fault Refusal :=
  match checkInit nn pp ii s with
  | .error e => .next (raise e s)
  | .ok (n, p) =>
    andThen (commit (zeros (8 * n.toNat)) (configure n p mm dd s)) fun t =>
      .next (respondOk (initBroadcasts ii (startRun t)))

/-- SETINT (R200, R201): one broadcast of the intensity; no copy is kept. -/
def execSetint (vv : Byte) (s : State) : Host.Outcome State Fault Refusal :=
  match checkSetint vv s with
  | .error e => .next (raise e s)
  | .ok _ => .next (respondOk (broadcast s.cfg.regIntensity vv s))

/-- SETPWR (R202, R203): one broadcast; the block keeps no power state. -/
def execSetpwr (p : Bool) (s : State) : Host.Outcome State Fault Refusal :=
  match checkInited s with
  | .error e => .next (raise e s)
  | .ok _ => .next (respondOk (broadcast s.cfg.regShutdown (powerByte s.cfg p) s))

end Sys2Proof.Machine
end

