-- ==== Sys2Proof/Machine/Scroll.lean ====
section
/-! DEFINITION. The scroll engine (42_scroll.md): the effective offset, the scroll step, and SETSCROLL. -/

namespace Sys2Proof.Machine

open Sys2Proof

/-- The direction as the integer the step adds to OFF (R26). -/
def Dir.toInt : Dir → Int
  | .minus => -1
  | .zero => 0
  | .plus => 1

/-- `-DIR` (R162). -/
def Dir.neg : Dir → Dir
  | .minus => .plus
  | .zero => .zero
  | .plus => .minus

/-- Scrolling is active and the content is long (R159): then, and only then, the step runs in a pass (R161). -/
def scrolls (s : State) : Bool := decide (s.mode ≠ .off) && decide (s.c < s.len)

/-- `EffOffset()` (R160). -/
def effOffset (s : State) : Int :=
  if s.mode = .off ∨ s.len ≤ s.c then 0 else s.off

/-- The trial value `t = OFF + DIR` of a step (R162), an integer. -/
def trialOff (s : State) : Int := s.off + s.dir.toInt

/-- Whether the trial value is beyond a wrap boundary: `t > LEN or t < -(8 * N)` (R162). -/
def beyondBound (s : State) : Bool := decide ((s.len : Int) < trialOff s) || decide (trialOff s < -(s.c : Int))

/-- The advance of OFF and DIR in a step whose countdown has reached 0 (R162): wrap, bounce or move. -/
def advance (s : State) : State :=
  if beyondBound s then
    match s.mode with
    | .off => s
    | .left => { s with off := s.len }
    | .right => { s with off := -(s.c : Int) }
    | .bounce => { s with dir := s.dir.neg }
  else { s with off := trialOff s }

/-- The countdown after the decrement that saturates at 0 (R162, R163). -/
def decremented (cnt : Byte) : Byte := if 0 < cnt.toNat then cnt - 1 else cnt

/-- `ScrollStep()` (R162): decrement the countdown; at 0 reload it and advance. CNT, OFF and DIR in one step. -/
def scrollStep (s : State) : State :=
  if decremented s.cnt = 0 then advance { s with cnt := s.delay }
  else { s with cnt := decremented s.cnt }

/-- SETSCROLL (R165): MODE and DELAY and the scroll reset in one atomic step; LOCK, FB and LEN are not touched and
nothing is emitted. -/
def execSetscroll (mm : Mode) (dd : Byte) (s : State) : Host.Outcome State Fault Refusal :=
  match checkInited s with
  | .error e => .next (raise e s)
  | .ok _ => .next (respondOk (setScroll mm dd s))

end Sys2Proof.Machine
end

