-- ==== Sys2Proof/Machine/Dispatch.lean ====
section
/-! DEFINITION. One arm per command: its meaning. -/

namespace Sys2Proof.Machine

def exec (i : Instr) (s : State) : Host.Outcome State Fault Refusal :=
  match i with
  | .init nn pp ii mm dd => Sys2Proof.Machine.execInit nn pp ii mm dd s
  | .setscroll mm dd => Sys2Proof.Machine.execSetscroll mm dd s
  | .clear => Sys2Proof.Machine.execClear s
  | .write rot inv records => Sys2Proof.Machine.execWrite rot inv records s
  | .setint vv => Sys2Proof.Machine.execSetint vv s
  | .setpwr p => Sys2Proof.Machine.execSetpwr p s

end Sys2Proof.Machine
end

