-- ==== Sys2Proof/Machine/Phased.lean ====
section
/-! DEFINITION. A command phase by phase (R30, R142, R198): the checks, then ACT = CMD(k) with the phases still to do,
one a step, so that a tick or a reset can land inside the command and LOCK = 1 is a state one sees. The meanings of
Dispatch.lean take the same phases as one operation (R74, R143; log 7, 17); that both agree is a statement. -/

namespace Sys2Proof.Machine

open Sys2Proof

/-- The commands that commit (R141). -/
def CmdKind.commits : CmdKind → Bool
  | .init => true
  | .clear => true
  | .write => true
  | .setscroll => false
  | .setint => false
  | .setpwr => false

/-- The phases of a commit (R142). -/
def commitPhases (content : List Byte) : List Phase :=
  [.lock, .replace content, .scrollReset, .unlock]

/-- The phases of a broadcast to `n` modules: one emission each (R195). -/
def broadcastPhases (n : Nat) (reg d : Byte) : List Phase := (broadcastWords n reg d).map .send

/-- The phases of INIT with its operands checked (R198). -/
def initPhases (p : Config) (n pin ii : Byte) (mm : Mode) (dd : Byte) : List Phase :=
  .configure n pin mm dd :: (commitPhases (zeros (8 * n.toNat)) ++ (.start ::
    (broadcastPhases n.toNat p.regScanLimit Config.valScanLimit
      ++ broadcastPhases n.toNat p.regDecode p.valDecodeOff
      ++ broadcastPhases n.toNat p.regDispTest p.valTestOff
      ++ broadcastPhases n.toNat p.regIntensity ii
      ++ broadcastPhases n.toNat p.regShutdown p.valPwrOn)))

/-- The command's kind and phases, or the first check that fails (R217). -/
def plan (i : Instr) (s : State) : Except Err (CmdKind × List Phase) :=
  match i with
  | .init nn pp ii mm dd =>
    match checkInit nn pp ii s with
    | .error e => .error e
    | .ok (n, p) => .ok (.init, initPhases s.cfg n p ii mm dd)
  | .setscroll mm dd =>
    match checkInited s with
    | .error e => .error e
    | .ok _ => .ok (.setscroll, [.setScroll mm dd])
  | .clear =>
    match checkInited s with
    | .error e => .error e
    | .ok _ => .ok (.clear, commitPhases (zeros s.c))
  | .write rot inv records =>
    match checkWrite records s with
    | .error e => .error e
    | .ok glyphs => .ok (.write, commitPhases (compose s.cfg.rotswap rot inv glyphs))
  | .setint vv =>
    match checkSetint vv s with
    | .error e => .error e
    | .ok _ => .ok (.setint, broadcastPhases s.n.toNat s.cfg.regIntensity vv)
  | .setpwr p =>
    match checkInited s with
    | .error e => .error e
    | .ok _ => .ok (.setpwr, broadcastPhases s.n.toNat s.cfg.regShutdown (powerByte s.cfg p))

/-- The start of a command's execution phase by phase (R46): the checks, then ACT <- CMD(k). -/
def begin (i : Instr) (s : State) : State :=
  match plan i s with
  | .error e => raise e s
  | .ok (k, todo) => { s with act := .cmd k todo }

/-- One phase of a command. -/
def phaseStep (p : Phase) (s : State) : Host.Outcome State Fault Refusal :=
  match p with
  | .configure n pin mode delay => .next (configure n pin mode delay s)
  | .lock => .next (lockBuffer s)
  | .replace content => replaceBuffer content s
  | .scrollReset => .next (scrollReset s)
  | .unlock => .next (unlockBuffer s)
  | .start => .next (startRun s)
  | .setScroll mode delay => .next (setScroll mode delay s)
  | .send w => .next (emit w s)

/-- The step of a command in progress: its next phase, or after the last one the response (R46). -/
def cmdStep (k : CmdKind) (todo : List Phase) (s : State) : Host.Outcome State Fault Refusal :=
  match todo with
  | [] => .next (respondOk s)
  | p :: rest => phaseStep p { s with act := .cmd k rest }

/-- All phases still to do and the response, at once: where a command in progress ends if nothing else happens. -/
def finish : List Phase → State → Host.Outcome State Fault Refusal
  | [], s => .next (respondOk s)
  | p :: rest, s => andThen (phaseStep p s) (finish rest)

end Sys2Proof.Machine
end

