-- ==== Sys2Proof/Machine/Scan.lean ====
section
/-! DEFINITION. The TICK event and the scan-out pass (43_scanout.md). -/

namespace Sys2Proof.Machine

open Sys2Proof

/-- TICK (R176): in any state, TICKPEND <- 1 if INITED = 1, and nothing else; a second tick merges with the first. -/
def tick (s : State) : State := if s.inited then { s with tickPend := true } else s

/-- The pass-start condition (R177). -/
def passReady (s : State) : Bool := decide (s.act = .idle) && !s.lock && s.tickPend

/-- The first action of a pass (R178): the scroll step if it runs, then E <- EffOffset(). -/
def passOffset (s : State) : State :=
  let t := if scrolls s then scrollStep s else s
  { t with e := effOffset t }

/-- The start of a pass (R177, R178), one atomic step: TICKPEND <- 0, ACT <- SCAN(1, 1), the scroll step, E. -/
def passStart (s : State) : State := passOffset { s with tickPend := false, act := .scan 1 0 }

/-- The flat index read for module `m` and row `r + 1` at effective offset `e`: `(m - 1) * 8 + r + E` (R63, R180). -/
def scanIndex (e : Int) (m : Nat) (r : Fin 8) : Int := ((m : Int) - 1) * 8 + ((r.val : Int) + 1) + e

/-- ACT after the row step of module `m`, row `r + 1` (R180, R181). -/
def nextScan (n m : Nat) (r : Fin 8) : Act :=
  if h : r.val + 1 < 8 then .scan m ⟨r.val + 1, h⟩
  else if m < n then .scan (m + 1) 0
  else .idle

/-- One row step (R180), with ACT = SCAN(m, r): read, emit, move on. A blank index is no fault (R64). -/
def rowStep (m : Nat) (r : Fin 8) (s : State) : Host.Outcome State Fault Refusal :=
  match fbRead s (scanIndex s.e m r) with
  | some d => .next { emit { m := m, reg := s.cfg.regRow.get r, d := d } s with act := nextScan s.n.toNat m r }
  | none => .fault .unwrittenRead

/-! ## The pass as one function (R182) -/

/-- The positions of a pass in order: module outer, row inner, both ascending (R179). -/
def passPositions (n : Nat) : List (Nat × Fin 8) :=
  (List.range n).flatMap fun j => (List.finRange 8).map fun r => (j + 1, r)

/-- The events of the transactions at `ps`, none where a byte is missing (log 3). -/
def rowEvents (s : State) : List (Nat × Fin 8) → Option (List SendWord)
  | [] => some []
  | (m, r) :: rest =>
    match fbRead s (scanIndex s.e m r), rowEvents s rest with
    | some d, some ws => some ({ m := m, reg := s.cfg.regRow.get r, d := d } :: ws)
    | _, _ => none

/-- `Pass()` (R182): the whole pass taken as one operation. The machine's own passes go row by row; that both agree is
a statement. -/
def wholePass (s : State) : Host.Outcome State Fault Refusal :=
  let t := passOffset { s with tickPend := false }
  match rowEvents t (passPositions t.n.toNat) with
  | some ws => .next { t with trace := t.trace ++ ws, act := .idle }
  | none => .fault .unwrittenRead

end Sys2Proof.Machine
end

