-- ==== Sys2Proof/Machine/Port.lean ====
section
/-! DEFINITION. The command port (R90, R91), the start of a frame's execution, the arbitration of the block's next
operation (R76, R177), and the effect of each move of the schedule. Step.lean only calls these. -/

namespace Sys2Proof.Machine

open Sys2Proof

/-- `cmd_ready` (R91): the block is idle or in the middle of a frame it has begun to receive, and no complete frame
waits (log 8). -/
def cmdReady (s : State) : Bool :=
  s.frame.isNone && (decide (s.act = .idle) || !s.rx.isEmpty)

/-- One byte transferred on the command port (R90, R91): it joins the frame, and the last one completes it. -/
def receive (b : Byte) (last : Bool) (s : State) : State :=
  if last then { s with rx := [], frame := some (s.rx ++ [b]) }
  else { s with rx := s.rx ++ [b] }

/-- The waiting frame is taken from the port: "consumed whole" (R90, R215). -/
def takeFrame (s : State) : State := { s with frame := none }

/-- A complete frame executed in one step: decode, then the command's meaning; Illegal raises IllegalCommand (R108,
R215). -/
def runFrame (f : List Byte) (s : State) : Host.Outcome State Fault Refusal :=
  match decode f with
  | .ok i => exec i (takeFrame s)
  | .error _ => .next (raise .illegalCommand (takeFrame s))

/-- A complete frame's execution started phase by phase (R46, R142). -/
def beginFrame (f : List Byte) (s : State) : State :=
  match decode f with
  | .ok i => begin i (takeFrame s)
  | .error _ => raise .illegalCommand (takeFrame s)

/-- The command at the port, in the granularity the choice asks for. -/
def startCommand (c : Choice) (f : List Byte) (s : State) : Host.Outcome State Fault Refusal :=
  if c = .commandPhased then .next (beginFrame f s) else runFrame f s

/-- The idle block (R46, R76, R177): it starts the operation that can start; where both can, `c` says which; where none
can, it waits (log 12, 20). -/
def idleStep (c : Choice) (s : State) : Host.Outcome State Fault Refusal :=
  match s.frame with
  | some f => if passReady s ∧ c = .pass then .next (passStart s) else startCommand c f s
  | none => if passReady s then .next (passStart s) else .next s

/-- One step of the block itself (R46). -/
def ownStep (c : Choice) (s : State) : Host.Outcome State Fault Refusal :=
  match s.act with
  | .idle => idleStep c s
  | .cmd k todo => cmdStep k todo s
  | .scan m r => rowStep m r s

/-- A command and a pass can both start (R76). -/
def contested (s : State) : Bool := passReady s && s.frame.isSome

/-- One step of the block itself where nothing says which operation starts: the free value says (R76, D8, log 6). -/
def freeStep (s : State) : Host.Outcome State Fault Refusal :=
  if contested s then
    ownStep (if Config.commandFirst s.arb then .command else .pass) { s with arb := s.arb + 1 }
  else ownStep .command s

/-- `rst` (R240 to R242): every register at its reset value, trace and port empty; an activity is abandoned. The
parameters and the model's own schedule and choice counter stand (log 10). -/
def assertReset (s : State) : State :=
  { State.resetOf s.cfg with sched := s.sched, arb := s.arb }

/-- HOST offers a byte: transferred where `cmd_ready` is 1; otherwise HOST waits and the block takes a step (R248,
log 9). -/
def offerByte (b : Byte) (last : Bool) (s : State) : Host.Outcome State Fault Refusal :=
  if cmdReady s then .next (receive b last s)
  else freeStep { s with sched := .byte b last :: s.sched }

/-- The effect of one move, already taken from the schedule. -/
def applyMove (mv : Move) (s : State) : Host.Outcome State Fault Refusal :=
  match mv with
  | .tick => .next (tick s)
  | .byte b last => offerByte b last s
  | .stall => .next s
  | .rst => .next (assertReset s)
  | .run c => ownStep c s

/-- One step of the block in its world: the next move of the schedule, or, where it is empty, the block by itself. The
schedule being finite, HOST is eventually quiet: of the two premises R256 offers for a pending tick to be served the
model takes that one (log 22). -/
def scheduledStep (s : State) : Host.Outcome State Fault Refusal :=
  match s.sched with
  | [] => freeStep s
  | mv :: rest => applyMove mv { s with sched := rest }

/-- One complete frame waiting at the port of an idle block, its execution the next move. -/
def placeFrame (f : List Byte) (s : State) : State :=
  { s with act := .idle, rx := [], frame := some f, sched := .run .command :: s.sched }

end Sys2Proof.Machine
end

