-- ==== Sys2Proof/Machine/Step.lean ====
section
/-! DEFINITION. One step of the machine, and the host's way to place one command before it. -/

namespace Sys2Proof.Machine

/-- One step. An instance whose parameters are outside their ranges is refused: "refuse: the spec describes no such
instance" (93 V8, log 2). -/
def step (s : State) : Host.Outcome State Fault Refusal :=
  if s.cfg.valid then scheduledStep s else .refused .noSuchInstance

/-- The state with the command of an opcode-table word waiting at the port, so that the next step runs it (log 14). -/
def State.withFetchWord (s : State) (nbits w : Nat) : State := placeFrame (tableFrame nbits w) s

end Sys2Proof.Machine
end

