-- ==== Sys2Proof/Machine/Bus.lean ====
section
/-! DEFINITION. What the block shows to the outside: the status and port pins (R43, R91, R241), the expansion of a
SendWord into the words of one latched transaction (R73, R109), and the image of the chips' registers as a function of
the trace (R73). None of it is state of the block (R42). -/

namespace Sys2Proof.Machine

open Sys2Proof

/-- The output pins. `rsp_valid` is a pulse and is the appending of a code to `responses` (log 13). -/
structure Pins where
  inited : Bool
  lock : Bool
  busy : Bool
  tickPending : Bool
  err : BitVec 6
  selPin : Byte
  cmdReady : Bool
  /-- the SendWord the output port offers, `tx_valid` = 1, if any -/
  tx : Option SendWord
deriving DecidableEq, Repr

/-- The SendWord the block is about to transfer: the next row of a pass, the next word of a broadcast (R72, R91). -/
def txOffer (s : State) : Option SendWord :=
  match s.act with
  | .idle => none
  | .cmd _ (.send w :: _) => some w
  | .cmd _ _ => none
  | .scan m r => (fbRead s (scanIndex s.e m r)).map fun d => { m := m, reg := s.cfg.regRow.get r, d := d }

/-- The pins of R43 and R91: each a copy of a register or a function of the state. -/
def State.pins (s : State) : Pins where
  inited := s.inited
  lock := s.lock
  busy := decide (s.act ≠ .idle)
  tickPending := s.tickPend
  err := s.errFlags
  selPin := s.pin
  cmdReady := Sys2Proof.Machine.cmdReady s
  tx := txOffer s

/-- The 16-bit word of a register byte and a data byte: register byte in bits 15..8 (R68 (a), R109; the spec's general
knowledge G1, log 16). -/
def busWord (reg d : Byte) : Word16 := reg ++ d

/-- The no-op word, 0x0000 (R14, R73). -/
def noopWord : Word16 := busWord Config.regNoop 0x00

/-- The word module `j` receives in the transaction of `w`: the addressed one its word, every other the no-op (R73). -/
def wordFor (w : SendWord) (j : Nat) : Word16 := if j = w.m then busWord w.reg w.d else noopWord

/-- The N words of one latched transaction, module 1 first (R73). In which order they leave the pin is outside (R4). -/
def latchedWords (n : Nat) (w : SendWord) : List Word16 := (List.range n).map fun j => wordFor w (j + 1)

/-- One chip register after a word: the register the word names takes its data byte; the no-op changes nothing (R73; the
spec's general knowledge G4, log 16). `none` is a register nothing has written. -/
def chipLatch (reg : Byte) (old : Option Byte) (w : Word16) : Option Byte :=
  let r : Byte := w.extractLsb' 8 8
  if r ≠ Config.regNoop ∧ r = reg then some (w.extractLsb' 0 8) else old

/-- Register `reg` of chip `m` after the transactions of a trace (R73): what the block has sent, not what a chip has
taken, since the bus gives no answer (R222, R257). -/
def chipRegister (trace : List SendWord) (m : Nat) (reg : Byte) : Option Byte :=
  trace.foldl (fun old w => chipLatch reg old (wordFor w m)) none

end Sys2Proof.Machine
end

