-- ==== Sys2Proof/Machine/Script.lean ====
section
/-! DEFINITION. The text form of R112, one line a constructor, what each line assembles to, and a run of whole
operations over it (R74, R182, R257; log 21): each command a whole frame, each tick followed by its pass. -/

namespace Sys2Proof.Machine

open Sys2Proof

/-- One line of R112. -/
inductive Line where
  /-- `INIT [n [, pin [, intensity [, mode [, delay]]]]]`: the operand bytes given -/
  | init (operands : List Byte)
  /-- `SETSCROLL mode, delay` -/
  | setscroll (mode delay : Byte)
  /-- `CLEAR` -/
  | clear
  /-- `WRITE[.L|.R][.I] glyphs`; a glyph may have any number of bytes -/
  | write (rot : Rot) (inv : Bool) (glyphs : List (List Byte))
  /-- `SETINT v` -/
  | setint (v : Byte)
  /-- `SETPWR ON | OFF` -/
  | setpwr (on : Bool)
  /-- `TICK *k`: k tick events, each followed by its pass -/
  | tick (k : Nat)
deriving DecidableEq, Repr

/-- The frame a command line assembles to, none for the TICK directive (R112). -/
def assemble : Line → Option (List Byte)
  | .init operands => some (0x10 :: operands)
  | .setscroll mode delay => some [0x20, mode, delay]
  | .clear => some [0x30]
  | .write rot inv glyphs =>
    some (writeOpcode rot inv :: BitVec.ofNat 8 glyphs.length :: glyphs.flatMap encodeRecord)
  | .setint v => some [0x50, v]
  | .setpwr on => some [if on then 0x61 else 0x60]
  | .tick _ => none

/-- A tick event and the pass it causes, if it causes one (R176, R177, R182). -/
def tickAndPass (s : State) : Host.Outcome State Fault Refusal :=
  if passReady (tick s) then wholePass (tick s) else .next (tick s)

/-- `k` tick events, each followed by its pass. -/
def ticksAndPasses : Nat → State → Host.Outcome State Fault Refusal
  | 0, s => .next s
  | k + 1, s => andThen (tickAndPass s) (ticksAndPasses k)

/-- The bytes of a frame received one by one, `cmd_last` with the last (R90, R91). -/
def receiveAll : List Byte → State → State
  | [], s => s
  | [b], s => receive b true s
  | b :: rest, s => receiveAll rest (receive b false s)

/-- One line run as a whole operation at an idle block. -/
def runLine (l : Line) (s : State) : Host.Outcome State Fault Refusal :=
  match l with
  | .tick k => ticksAndPasses k s
  | other =>
    match assemble other with
    | some f =>
      match (receiveAll f s).frame with
      | some g => runFrame g (receiveAll f s)
      | none => .next (receiveAll f s)
    | none => .next s

/-- The lines of a program in order. -/
def runScript : List Line → State → Host.Outcome State Fault Refusal
  | [], s => .next s
  | l :: rest, s => andThen (runLine l s) (runScript rest)

end Sys2Proof.Machine
end

