-- ==== Sys2Proof/Safety.lean ====
section
/-! DEFINITION. What a good state and a clean run are: the invariants of 10_state.md rules R35 to R41, the end of a run
(R257), and the spec's own safety predicate, no command rejected (R236). -/

namespace Sys2Proof.Machine

open Sys2Proof

/-- DIR and OFF agree with MODE (R37). -/
def DirAgrees (mode : Mode) (dir : Dir) (off : Int) : Prop :=
  match mode with
  | .off => dir = .zero ∧ off = 0
  | .left => dir = .minus
  | .right => dir = .plus
  | .bounce => dir = .minus ∨ dir = .plus

/-- The registers agree with each other, at a moment no command is half done (10_state.md section 6). -/
structure Settled (s : State) : Prop where
  /-- N ≤ NMAX (R20) -/
  nLeNmax : s.n.toNat ≤ s.cfg.nmax
  /-- N is positive once INIT has succeeded (R20) -/
  nPositive : s.inited = true → 1 ≤ s.n.toNat
  /-- −C ≤ OFF ≤ LEN (R35) -/
  offBounds : -(s.c : Int) ≤ s.off ∧ s.off ≤ s.len
  /-- CNT ≤ DELAY, and between ticks 1 ≤ CNT where DELAY ≠ 0 (R36) -/
  cntBounds : s.cnt.toNat ≤ s.delay.toNat ∧ (s.delay ≠ 0 → s.cnt ≠ 0)
  /-- DIR is determined by MODE except in bounce (R37) -/
  dirAgrees : DirAgrees s.mode s.dir s.off
  /-- LEN is a multiple of 8 (R38) -/
  lenMultiple : s.len % 8 = 0
  /-- before the first successful INIT (R40) -/
  uninit : s.inited = false → s.tickPend = false ∧ s.len = 0 ∧ s.n = 0 ∧ s.mode = .off

/-- A word the block may send: to a module 1..NMAX (R109), to one of the thirteen registers of R196, so never to the
no-op's. -/
def SendWord.legal (p : Config) (w : SendWord) : Bool :=
  decide (1 ≤ w.m) && decide (w.m ≤ p.nmax) && decide (w.reg ∈ p.registers)

/-- The phases still to do of command `k` are in a legal order from LOCK = `lock`: LOCK is set by P1 of a committing
command, cleared by P4, and only P2, P3 and P4 of a committing command run while it is 1 (R142, R39); every word to
send is one the block may send. -/
def todoLegal (p : Config) (k : CmdKind) : Bool → List Phase → Bool
  | lock, [] => !lock
  | lock, .lock :: rest => !lock && k.commits && todoLegal p k true rest
  | lock, .replace _ :: rest => lock && k.commits && todoLegal p k lock rest
  | lock, .scrollReset :: rest => lock && k.commits && todoLegal p k lock rest
  | lock, .unlock :: rest => lock && k.commits && todoLegal p k false rest
  | lock, .configure _ _ _ _ :: rest => !lock && todoLegal p k lock rest
  | lock, .start :: rest => !lock && todoLegal p k lock rest
  | lock, .setScroll _ _ :: rest => !lock && todoLegal p k lock rest
  | lock, .send w :: rest => !lock && w.legal p && todoLegal p k lock rest

/-- What holds of the activity register and the registers with it (R30, R33, R39). A command in progress will, if
nothing else happens, end in a settled state. -/
def ActivityOk (s : State) : Prop :=
  match s.act with
  | .idle => s.lock = false ∧ Settled s
  | .scan m _ => s.lock = false ∧ Settled s ∧ s.inited = true ∧ 1 ≤ m ∧ m ≤ s.n.toNat ∧ s.e = effOffset s
  | .cmd k todo =>
    s.frame = none ∧ s.rx = [] ∧ todoLegal s.cfg k s.lock todo = true ∧
      ∃ t, finish todo s = .next t ∧ Settled t

/-- The invariant of the machine: it holds after reset, and every step keeps it. -/
structure Inv (s : State) : Prop where
  /-- the parameters are those of an instance the spec describes (R6, V8) -/
  cfgValid : s.cfg.valid = true
  /-- FB holds exactly the bytes FB[1..LEN], and they fit (R28, R38): at every moment, inside a command too -/
  bufferOk : s.fb.map Prod.fst = List.range' 1 s.len ∧ s.len ≤ s.cfg.lmax
  /-- no byte of a second frame is received while a frame waits (R77) -/
  portOk : s.frame.isSome = true → s.rx = []
  /-- every word sent was one the block may send (R109, R196) -/
  traceOk : ∀ w ∈ s.trace, w.legal s.cfg = true
  /-- the activity and the registers (R35 to R40) -/
  activityOk : ActivityOk s

/-- `k` steps of the machine, stopping at the first fault or refusal. -/
def steps : Nat → State → Host.Outcome State Fault Refusal
  | 0, s => .next s
  | k + 1, s => andThen (step s) (steps k)

/-- The next move is not the reset input. -/
def notReset (s : State) : Prop := s.sched.head? ≠ some .rst

/-- The end of a run (R257): nothing in progress, no tick pending, no partial or waiting frame, nothing scheduled. -/
def atEnd (s : State) : Bool :=
  decide (s.act = .idle) && !s.tickPend && s.rx.isEmpty && s.frame.isNone && s.sched.isEmpty

/-- The spec's safety predicate (R236): no command of the run was rejected. -/
def clean (s : State) : Bool := decide (s.errFlags = 0)

/-- The pass events still to come, or the words a command still has to send, oldest first; none where a byte of the
window is missing (log 3). -/
def pending (s : State) : Option (List SendWord) :=
  match s.act with
  | .idle => some []
  | .cmd _ todo => some (todo.filterMap fun p => match p with | .send w => some w | _ => none)
  | .scan m r => rowEvents s ((passPositions s.n.toNat).drop ((m - 1) * 8 + r.val))

end Sys2Proof.Machine
end

