-- ==== Sys2Proof/Certificates/Slice0/Obligations.lean ====
section
/-! DEFINITION. The statements for the provers, in the order of OBLIGATIONS.json. Each docstring names the rules of
spec/ it formalises, or the log entry where a clause is the model's own choice. -/

open Sys2Proof Sys2Proof.Machine

/-! ## Frames -/

/-- R95 to R100, R108: no bit of a command's encoding is dropped. INIT is written with all its optional bytes (log 18),
and the shorter INIT frames are the business of the next statement. -/
def Obligations.DecodeOfEncodeIsTheCommand : Prop :=
  ∀ i : Instr, i.wellFormed = true → decode (encode i) = .ok i

/-- R95 to R100, R108: a frame that decodes is the encoding of what it decodes to, but for INIT frames of 3 to 5 bytes,
which the defaults intensity 1, mode off, delay 0 complete (R95: "Absent trailing bytes take the defaults"). -/
def Obligations.DecodedFrameIsTheEncoding : Prop :=
  ∀ (f : List Byte) (i : Instr), decode f = .ok i →
    i.wellFormed = true ∧
      (f = encode i ∨
        (∃ n p ii mm dd, i = .init (some n) (some p) ii mm dd) ∧ 3 ≤ f.length ∧ f.length < 6 ∧
          f ++ ([1, 0, 0] : List Byte).drop (f.length - 3) = encode i)

/-- R104, R105: every malformed frame and every reserved field value raises IllegalCommand and changes nothing else:
flag 4, response 4, ACT idle, the frame consumed. `Malformed` is written out case by case, (a), (b), (c) of R104 and
the three of R105. -/
def Obligations.MalformedFramesRaiseIllegalCommand : Prop :=
  ∀ (s : State) (b0 : Byte) (ops : List Byte),
    ((b0 ≠ 0x10 ∧ b0 ≠ 0x20 ∧ b0 ≠ 0x30 ∧ b0 &&& 0xF8 ≠ 0x40 ∧ b0 ≠ 0x50 ∧ b0 &&& 0xFE ≠ 0x60) ∨
      (b0 = 0x10 ∧ 5 < ops.length) ∨
      (b0 = 0x20 ∧ ops.length ≠ 2) ∨
      (b0 = 0x30 ∧ ops.length ≠ 0) ∨
      (b0 = 0x50 ∧ ops.length ≠ 1) ∨
      (b0 &&& 0xFE = 0x60 ∧ ops.length ≠ 0) ∨
      (b0 &&& 0xF8 = 0x40 ∧ ops.length = 0) ∨
      (b0 &&& 0xF8 = 0x40 ∧ ∃ g rest, ops = g :: rest ∧
        ¬ ∃ records : List (List Byte), records.length = g.toNat ∧ (∀ r ∈ records, r.length ≤ 255) ∧
          rest = records.flatMap fun r => BitVec.ofNat 8 r.length :: r) ∨
      (b0 = 0x20 ∧ ∃ m d, ops = [m, d] ∧ 4 ≤ m.toNat) ∨
      (b0 = 0x10 ∧ ∃ m, ops[3]? = some m ∧ 4 ≤ m.toNat) ∨
      (b0 &&& 0xF8 = 0x40 ∧ b0 &&& 0x03 = 0x03)) →
    runFrame (b0 :: ops) s = .next { s with
      frame := none
      errFlags := s.errFlags ||| 0b001000#6
      responses := s.responses ++ [.error .illegalCommand]
      act := .idle }

/-- R94 to R100 on words written out from the spec's encodings, most of them among the vectors E-1 to E-29 of
95_test_vectors.md; the WRITE frame is put together from R98, and `50 0F` is the example of R200: a sanity statement. -/
def Obligations.SpecWordsDecode : Prop :=
  decode [0x10, 0x02, 0x04] = .ok (.init (some 2) (some 4) 1 .off 0) ∧
  decode [0x10, 0x02, 0x04, 0x01, 0x03, 0x02] = .ok (.init (some 2) (some 4) 1 .bounce 2) ∧
  decode [0x20, 0x01, 0x05] = .ok (.setscroll .left 5) ∧
  decode [0x30] = .ok .clear ∧
  decode [0x46, 0x01, 0x08, 0xFF, 0, 0, 0, 0, 0, 0, 0]
    = .ok (.write .right true [[0xFF, 0, 0, 0, 0, 0, 0, 0]]) ∧
  decode [0x50, 0x0F] = .ok (.setint 15) ∧
  decode [0x60] = .ok (.setpwr false) ∧ decode [0x61] = .ok (.setpwr true)

/-- R112: the opcode bytes of the WRITE suffixes and the example line of the rule. -/
def Obligations.WriteLinesAssemble : Prop :=
  writeOpcode .none false = 0x40 ∧ writeOpcode .left false = 0x41 ∧ writeOpcode .right false = 0x42 ∧
  writeOpcode .none true = 0x44 ∧ writeOpcode .left true = 0x45 ∧ writeOpcode .right true = 0x46 ∧
  assemble (.write .none true [[0xFF, 0, 0, 0, 0, 0, 0, 0]])
    = some [0x44, 0x01, 0x08, 0xFF, 0, 0, 0, 0, 0, 0, 0]

/-- R90, R91: the bytes of a frame, or the rest of a frame begun, offered one by one, are received whole and in order,
and nothing else changes. The block is idle, or a pass runs between two bytes of the frame ("a pass may run between two
bytes of a frame"): the pass waits for no byte and no byte for it. The schedule is the model's own way to say that HOST
offers the bytes (log 5). -/
def Obligations.FrameIsReceivedByteByByte : Prop :=
  ∀ (s : State) (f : List Byte) (b : Byte) (rest : List Move),
    s.cfg.valid = true → (s.act = .idle ∨ (∃ m r, s.act = .scan m r) ∧ s.rx ≠ []) → s.frame = none →
    s.sched = f.map (fun x => Move.byte x false) ++ .byte b true :: rest →
    steps (f.length + 1) s = .next { s with rx := [], frame := some (s.rx ++ f ++ [b]), sched := rest }

/-- R248, R91: the first byte of a frame offered while a command executes or a pass runs is not accepted; it stays
offered (log 9) and the activity goes on. The same where a complete frame waits for the pass to end (log 8).
The spec marks R248 as its own inference ("[derived"). -/
def Obligations.BusyBlockMakesTheHostWait : Prop :=
  ∀ (s : State) (b : Byte) (last : Bool) (rest : List Move),
    s.cfg.valid = true → s.rx = [] ∨ s.frame ≠ none → s.sched = .byte b last :: rest →
    (∀ k todo, s.act = .cmd k todo → step s = cmdStep k todo s) ∧
    (∀ m r, s.act = .scan m r → step s = rowStep m r s)

/-! ## Errors -/

/-- R214, R111: an error sets its own flag, answers its code, returns ACT to IDLE and writes nothing else; the other
five flags stand. -/
def Obligations.RaiseRecordsTheErrorAndNothingElse : Prop :=
  ∀ (e : Err) (s : State),
    raise e s = { s with
      errFlags := (raise e s).errFlags
      responses := s.responses ++ [.error e]
      act := .idle } ∧
    (∀ e' : Err, errFlag e' (raise e s).errFlags = (errFlag e' s.errFlags || decide (e' = e))) ∧
    ((Code.error e).bits.toNat =
      match e with
      | .configurationError => 1
      | .invalidGlyph => 2
      | .outOfRangeIntensity => 3
      | .illegalCommand => 4
      | .notInitialized => 5
      | .contentTooLong => 6)

/-- R215 to R221: which error a frame reports, the first in the order of R217. -/
def Obligations.FirstFailingCheckIsReported : Prop :=
  ∀ s : State,
    (∀ f r, decode f = .error r → runFrame f s = .next (raise .illegalCommand (takeFrame s))) ∧
    (∀ i, (∀ nn pp ii mm dd, i ≠ .init nn pp ii mm dd) → s.inited = false →
      exec i s = .next (raise .notInitialized s)) ∧
    (∀ nn pp ii mm dd, (nn = none ∨ pp = none) →
      exec (.init nn pp ii mm dd) s = .next (raise .configurationError s)) ∧
    (∀ n p ii mm dd, (n.toNat = 0 ∨ s.cfg.nmax < n.toNat) →
      exec (.init (some n) (some p) ii mm dd) s = .next (raise .configurationError s)) ∧
    (∀ n p ii mm dd, 1 ≤ n.toNat → n.toNat ≤ s.cfg.nmax → 15 < ii.toNat →
      exec (.init (some n) (some p) ii mm dd) s = .next (raise .outOfRangeIntensity s)) ∧
    (∀ rot inv records, s.inited = true → s.cfg.gmax < records.length →
      exec (.write rot inv records) s = .next (raise .contentTooLong s)) ∧
    (∀ rot inv records, s.inited = true → records.length ≤ s.cfg.gmax → (∃ r ∈ records, r.length ≠ 8) →
      exec (.write rot inv records) s = .next (raise .invalidGlyph s)) ∧
    (∀ vv : Byte, s.inited = true → 15 < vv.toNat →
      exec (.setint vv) s = .next (raise .outOfRangeIntensity s))

/-- R223: a command either answers OK with no error flag changed, or raises one error and has written and emitted
nothing else. The spec marks R223 as its own inference ("[derived"). -/
def Obligations.CommandIsAllOrNothing : Prop :=
  ∀ (i : Instr) (s t : State), exec i s = .next t →
    (t.responses = s.responses ++ [.ok] ∧ t.errFlags = s.errFlags ∧ t.act = .idle) ∨
    (∃ e, t = { s with
      errFlags := s.errFlags ||| errMask e, responses := s.responses ++ [.error e], act := .idle })

/-! ## Geometry -/

/-- R120, R121: bit reversal, bit by bit, and its own inverse. -/
def Obligations.ReverseBitsMirrorsTheByte : Prop :=
  ∀ b : Byte, (∀ k : Fin 8, (reverseBits b).getLsbD k.val = b.getLsbD (7 - k.val)) ∧
    reverseBits (reverseBits b) = b

/-- R122, R123: the two quarter turns, bit by bit. Row r of the rule is `r.val + 1` here. -/
def Obligations.QuarterTurnsBitByBit : Prop :=
  ∀ (a : Glyph) (r k : Fin 8),
    ((rotL a).get r).getLsbD k.val = (a.get k).getLsbD (8 - (r.val + 1)) ∧
    ((rotR a).get r).getLsbD k.val = (a.get k.rev).getLsbD (r.val + 1 - 1)

/-- R126: four turns one way, one turn each way, and two turns are the half turn H, for both values of ROTSWAP.
The spec marks R126 as its own inference ("[derived"). -/
def Obligations.QuarterTurnLaws : Prop :=
  ∀ (w : Bool) (a : Glyph),
    rotateLeft w (rotateLeft w (rotateLeft w (rotateLeft w a))) = a ∧
    rotateRight w (rotateRight w (rotateRight w (rotateRight w a))) = a ∧
    rotateRight w (rotateLeft w a) = a ∧ rotateLeft w (rotateRight w a) = a ∧
    rotL (rotL a) = rotR (rotR a) ∧
    ∀ k : Fin 8, (rotL (rotL a)).get k.rev = reverseBits (a.get k)

/-- R128, R129: where each byte of each glyph lands, for every transform. `i` and `k` are 0-based here, so the rule's
`i*8 + k` and `i*8 + (9 - k)` are the list positions `i*8 + k` and `i*8 + (7 - k)`. -/
def Obligations.ComposePlacesEveryRow : Prop :=
  ∀ (w : Bool) (rot : Rot) (glyphs : List Glyph),
    (∀ inv, (compose w rot inv glyphs).length = 8 * glyphs.length) ∧
    ∀ (i : Nat) (g : Glyph) (k : Fin 8), glyphs[i]? = some g →
      let h := match rot with
        | .none => g
        | .left => rotateLeft w g
        | .right => rotateRight w g
      (compose w rot false glyphs)[i * 8 + k.val]? = some (h.get k) ∧
      (compose w rot true glyphs)[i * 8 + (7 - k.val)]? = some (reverseBits (h.get k))

/-- R130, R131: WRITE.L.I places what WRITE.R places and WRITE.R.I what WRITE.L places; glyphs do not interact.
The spec marks R130 and R131 as its own inference ("[derived"). -/
def Obligations.TransformsCombine : Prop :=
  ∀ (w : Bool) (rot : Rot) (inv : Bool) (x y : List Glyph),
    compose w .left true x = compose w .right false x ∧
    compose w .right true x = compose w .left false x ∧
    compose w rot inv (x ++ y) = compose w rot inv x ++ compose w rot inv y

/-! ## The commands, where they complete -/

/-- R145, R142, R144: WRITE of whole glyphs on an initialised block answers this state; every register not named is
unchanged, nothing is emitted. The whole buffer is the new content (R66); how it reads, `CommittedContentReadsBack`
says. -/
def Obligations.WriteCommitsTheComposedGlyphs : Prop :=
  ∀ (rot : Rot) (inv : Bool) (glyphs : List Glyph) (s : State),
    s.inited = true → glyphs.length ≤ s.cfg.gmax →
    exec (.write rot inv (glyphs.map Eight.toList)) s = .next { s with
      fb := Memory.ofContent (compose s.cfg.rotswap rot inv glyphs)
      len := 8 * glyphs.length
      off := resetOff s.mode (8 * glyphs.length)
      dir := resetDir s.mode
      cnt := s.delay
      lock := false
      act := .idle
      responses := s.responses ++ [.ok] }

/-- R147: CLEAR on an initialised block; its C bytes fit the buffer in every instance the spec describes (R7). -/
def Obligations.ClearCommitsBlankColumns : Prop :=
  ∀ s : State, s.inited = true → s.cfg.valid = true → s.n.toNat ≤ s.cfg.nmax →
    exec .clear s = .next { s with
      fb := Memory.ofContent (List.replicate (8 * s.n.toNat) 0)
      len := 8 * s.n.toNat
      off := resetOff s.mode (8 * s.n.toNat)
      dir := resetDir s.mode
      cnt := s.delay
      lock := false
      act := .idle
      responses := s.responses ++ [.ok] }

/-- R165: SETSCROLL on an initialised block. LOCK, FB and LEN stand, nothing is emitted. -/
def Obligations.SetscrollReplacesTheScrollState : Prop :=
  ∀ (mm : Mode) (dd : Byte) (s : State), s.inited = true →
    exec (.setscroll mm dd) s = .next { s with
      mode := mm
      delay := dd
      off := (match mm with | .off => 0 | .left => (s.len : Int) | .right => 0 | .bounce => (s.len : Int))
      dir := (match mm with | .off => .zero | .left => .minus | .right => .plus | .bounce => .minus)
      cnt := dd
      act := .idle
      responses := s.responses ++ [.ok] }

/-- R198, R244: INIT with legal operands, from any state: every register it writes, the five broadcasts in their order,
ERRFLAGS and the rest unchanged. The spec marks R244 as its own inference ("[derived"). -/
def Obligations.InitInitialisesTheBlock : Prop :=
  ∀ (n p ii : Byte) (mm : Mode) (dd : Byte) (s : State),
    s.cfg.valid = true → 1 ≤ n.toNat → n.toNat ≤ s.cfg.nmax → ii.toNat ≤ 15 →
    exec (.init (some n) (some p) ii mm dd) s = .next { s with
      inited := true
      n := n
      pin := p
      mode := mm
      delay := dd
      off := (match mm with
        | .off => 0 | .left => 8 * (n.toNat : Int) | .right => 0 | .bounce => 8 * (n.toNat : Int))
      dir := (match mm with | .off => .zero | .left => .minus | .right => .plus | .bounce => .minus)
      cnt := dd
      len := 8 * n.toNat
      fb := Memory.ofContent (List.replicate (8 * n.toNat) 0)
      lock := false
      tickPend := false
      act := .idle
      responses := s.responses ++ [.ok]
      trace := s.trace ++
        ([(s.cfg.regScanLimit, 7), (s.cfg.regDecode, s.cfg.valDecodeOff), (s.cfg.regDispTest, s.cfg.valTestOff),
          (s.cfg.regIntensity, ii), (s.cfg.regShutdown, s.cfg.valPwrOn)] : List (Byte × Byte)).flatMap
            fun x => (List.range n.toNat).map fun j => { m := j + 1, reg := x.1, d := x.2 } }

/-- R200, R195: SETINT of a legal intensity on an initialised block: one word to each module, ascending, and nothing
else. -/
def Obligations.SetintBroadcastsTheIntensity : Prop :=
  ∀ (vv : Byte) (s : State), s.inited = true → vv.toNat ≤ 15 →
    exec (.setint vv) s = .next { s with
      act := .idle
      responses := s.responses ++ [.ok]
      trace := s.trace ++ (List.range s.n.toNat).map fun j => { m := j + 1, reg := s.cfg.regIntensity, d := vv } }

/-- R202, R195: SETPWR on an initialised block: one word to each module, ascending, and nothing else. -/
def Obligations.SetpwrBroadcastsThePowerByte : Prop :=
  ∀ (p : Bool) (s : State), s.inited = true →
    exec (.setpwr p) s = .next { s with
      act := .idle
      responses := s.responses ++ [.ok]
      trace := s.trace ++ (List.range s.n.toNat).map fun j =>
        { m := j + 1, reg := s.cfg.regShutdown, d := if p then s.cfg.valPwrOn else s.cfg.valPwrOff } }

/-- R144, R64, R66: after a commit every read of the buffer gives the content's byte, and blank outside; the registers
are those of R144. -/
def Obligations.CommittedContentReadsBack : Prop :=
  ∀ (content : List Byte) (s t : State), commit content s = .next t →
    t.len = content.length ∧ t.lock = false ∧ t.cnt = s.delay ∧
    t.off = resetOff s.mode content.length ∧ t.dir = resetDir s.mode ∧
    ∀ idx : Int, fbRead t idx =
      some (if 1 ≤ idx ∧ idx ≤ content.length then content.getD (idx.toNat - 1) 0 else 0)

/-- R64: a read within 1..LEN gives the byte FB holds there; every other read, at any integer index, is blank. -/
def Obligations.ReadFollowsTheRule : Prop :=
  ∀ (s : State) (idx : Int),
    (1 ≤ idx → idx ≤ s.len → fbRead s idx = s.fb.read idx.toNat) ∧
    ((idx < 1 ∨ (s.len : Int) < idx) → fbRead s idx = some 0)

/-! ## The scroll engine -/

/-- R157, R156: the scroll reset, mode by mode, and its frame. -/
def Obligations.ScrollResetFollowsTheMode : Prop :=
  ∀ s : State,
    (s.mode = .off → scrollReset s = { s with off := 0, dir := .zero, cnt := s.delay }) ∧
    (s.mode = .left → scrollReset s = { s with off := s.len, dir := .minus, cnt := s.delay }) ∧
    (s.mode = .right → scrollReset s = { s with off := 0, dir := .plus, cnt := s.delay }) ∧
    (s.mode = .bounce → scrollReset s = { s with off := s.len, dir := .minus, cnt := s.delay })

/-- R162, R163: one scroll step. A countdown above 1 only counts down; at 1, or at 0 with DELAY 0, it reloads and the
offset moves, wraps, or the direction inverts. -/
def Obligations.ScrollStepFollowsTheRule : Prop :=
  ∀ s : State, s.mode ≠ .off →
    (1 < s.cnt.toNat → scrollStep s = { s with cnt := s.cnt - 1 }) ∧
    (s.cnt.toNat ≤ 1 → -(8 * (s.n.toNat : Int)) ≤ s.off + s.dir.toInt → s.off + s.dir.toInt ≤ s.len →
      scrollStep s = { s with cnt := s.delay, off := s.off + s.dir.toInt }) ∧
    (s.cnt.toNat ≤ 1 → (s.off + s.dir.toInt < -(8 * (s.n.toNat : Int)) ∨ (s.len : Int) < s.off + s.dir.toInt) →
      scrollStep s =
        (match s.mode with
        | .off => s
        | .left => { s with cnt := s.delay, off := s.len }
        | .right => { s with cnt := s.delay, off := -(8 * (s.n.toNat : Int)) }
        | .bounce => { s with cnt := s.delay, dir := s.dir.neg }))

/-- R167: after every reset and every step −C ≤ OFF ≤ L, and a step inverts DIR in exactly two states of bounce mode.
The spec marks R167 as its own inference ("[derived"). -/
def Obligations.OffsetStaysWithinItsBounds : Prop :=
  ∀ s : State,
    (-(s.c : Int) ≤ (scrollReset s).off ∧ (scrollReset s).off ≤ s.len) ∧
    (Settled s → scrolls s = true →
      -(s.c : Int) ≤ (scrollStep s).off ∧ (scrollStep s).off ≤ s.len ∧
      ((scrollStep s).dir ≠ s.dir ↔
        s.cnt.toNat ≤ 1 ∧ s.mode = .bounce ∧
          ((s.off = s.len ∧ s.dir = .plus) ∨ (s.off = -(s.c : Int) ∧ s.dir = .minus))))

/-- R164, R163: from a reset, with the content long and scrolling active, the offsets of the k-th advance, one advance
every max(DELAY, 1) steps, and the length of the cycle, after which the whole state is that of the reset again.
The spec marks R164 as its own inference ("[derived"). -/
def Obligations.ScrollCyclesReturnToTheReset : Prop :=
  ∀ (s : State), scrolls s = true →
    (s.mode = .left →
      (∀ k, k ≤ s.len + s.c →
        (scrollStep^[max 1 s.delay.toNat * k] (scrollReset s)).off = (s.len : Int) - k) ∧
      scrollStep^[max 1 s.delay.toNat * (s.len + s.c + 1)] (scrollReset s) = scrollReset s) ∧
    (s.mode = .right →
      (∀ k, k ≤ s.len → (scrollStep^[max 1 s.delay.toNat * k] (scrollReset s)).off = (k : Int)) ∧
      (∀ k, k ≤ s.c →
        (scrollStep^[max 1 s.delay.toNat * (s.len + 1 + k)] (scrollReset s)).off = (k : Int) - s.c) ∧
      scrollStep^[max 1 s.delay.toNat * (s.len + s.c + 1)] (scrollReset s) = scrollReset s) ∧
    (s.mode = .bounce →
      (∀ k, k ≤ s.len + s.c →
        (scrollStep^[max 1 s.delay.toNat * k] (scrollReset s)).off = (s.len : Int) - k) ∧
      (∀ k, k ≤ s.len + s.c →
        (scrollStep^[max 1 s.delay.toNat * (s.len + s.c + 1 + k)] (scrollReset s)).off = (k : Int) - s.c) ∧
      scrollStep^[max 1 s.delay.toNat * (2 * (s.len + s.c) + 2)] (scrollReset s) = scrollReset s)

/-! ## The tick and the pass -/

/-- R176: a tick sets TICKPEND on an initialised block, is ignored on another, and changes nothing else, whatever the
block is doing. -/
def Obligations.TickOnlyMarksThePendingBit : Prop :=
  ∀ (s : State) (rest : List Move), s.cfg.valid = true → s.sched = .tick :: rest →
    step s = .next { s with sched := rest, tickPend := s.inited || s.tickPend }

/-- R177: a pass starts only from an idle, unlocked block with a tick pending, at SCAN(1, 1), with the tick consumed;
and followed at once by R178 (`passStart`); and there it does start where no command waits. -/
def Obligations.PassStartsExactlyWhenAllowed : Prop :=
  (∀ s t : State, step s = .next t → (∀ m r, s.act ≠ .scan m r) → (∃ m r, t.act = .scan m r) →
    s.act = .idle ∧ s.lock = false ∧ s.tickPend = true ∧ t.act = .scan 1 0 ∧ t.tickPend = false ∧
      t = passStart { s with sched := t.sched, arb := t.arb }) ∧
  (∀ s : State, s.cfg.valid = true → s.act = .idle → s.lock = false → s.tickPend = true → s.frame = none →
    s.sched = [] → step s = .next (passStart s))

/-- R178, R161, R160: the first action of a pass: the tick is consumed, the scroll step runs if scrolling is active and
the content long, then E is latched. -/
def Obligations.PassStartStepsThenLatchesTheOffset : Prop :=
  ∀ s : State,
    (s.mode ≠ .off → 8 * s.n.toNat < s.len →
      passStart s = { scrollStep { s with tickPend := false, act := .scan 1 0 } with e := (scrollStep s).off }) ∧
    ((s.mode = .off ∨ s.len ≤ 8 * s.n.toNat) →
      passStart s = { s with tickPend := false, act := .scan 1 0, e := 0 })

/-- R180, R181: one row step of a pass: one SendWord, ACT moves on, nothing else changes. -/
def Obligations.RowStepEmitsOneRow : Prop :=
  ∀ (s : State) (m : Nat) (r : Fin 8) (d : Byte), s.cfg.valid = true → s.act = .scan m r → s.sched = [] →
    fbRead s (((m : Int) - 1) * 8 + ((r.val : Int) + 1) + s.e) = some d →
    step s = .next { s with
      trace := s.trace ++ [{ m := m, reg := s.cfg.regRow.get r, d := d }]
      act := if h : r.val + 1 < 8 then .scan m ⟨r.val + 1, h⟩
        else if m < s.n.toNat then .scan (m + 1) 0 else .idle }

/-- R182: the machine's row-by-row pass is the function Pass(), in 1 + 8·N steps. -/
def Obligations.PassIsTheWholePassFunction : Prop :=
  ∀ s : State, Inv s → s.act = .idle → s.tickPend = true → s.frame = none → s.sched = [] →
    steps (1 + 8 * s.n.toNat) s = wholePass s ∧ ∃ t, wholePass s = .next t

/-- R179, R63, R64: the k-th transaction of a pass, k counted from 0 here, is for module k / 8 + 1 and row k mod 8 + 1
and carries the byte at flat index k + 1 + E; there are 8·N of them. -/
def Obligations.PassReadsTheWindowInOrder : Prop :=
  ∀ s t : State, wholePass s = .next t →
    ∃ ws, t.trace = s.trace ++ ws ∧ ws.length = 8 * s.n.toNat ∧
      ∀ k, k < 8 * s.n.toNat → ∃ d, fbRead s ((k : Int) + 1 + t.e) = some d ∧
        ws[k]? = some { m := k / 8 + 1, reg := s.cfg.regRow.get ⟨k % 8, Nat.mod_lt k (by decide)⟩, d := d }

/-- R182, R185, R230: what a whole pass does not write, and that every word it sends writes a row register.
The spec marks R185 as its own inference ("[derived"). -/
def Obligations.PassWritesOnlyScrollStateAndRows : Prop :=
  ∀ s t : State, wholePass s = .next t →
    t = { s with
      tickPend := false, off := t.off, dir := t.dir, cnt := t.cnt, e := t.e, trace := t.trace, act := .idle } ∧
    ∃ ws, t.trace = s.trace ++ ws ∧ ∀ w ∈ ws, ∃ r, w.reg = s.cfg.regRow.get r

/-- R70, R71, R254: while a pass is in progress, whatever arrives but a reset, the buffer, its length, the latched
offset and every register a command writes stand, but for two: TICKPEND, which a tick alone sets (R176), and ACT, which
stays or moves to the pass's next position. So the pass sees one version of the buffer.
The spec marks R70 and R71 as its own inference ("[derived"). -/
def Obligations.PassSeesOneVersionOfTheBuffer : Prop :=
  ∀ (s t : State) (m : Nat) (r : Fin 8), s.act = .scan m r → notReset s → step s = .next t →
    t.fb = s.fb ∧ t.len = s.len ∧ t.e = s.e ∧ t.n = s.n ∧ t.pin = s.pin ∧ t.inited = s.inited ∧
    t.mode = s.mode ∧ t.delay = s.delay ∧ t.off = s.off ∧ t.dir = s.dir ∧ t.cnt = s.cnt ∧
    t.lock = s.lock ∧ t.errFlags = s.errFlags ∧ t.responses = s.responses ∧
    (t.tickPend = s.tickPend ∨ s.sched.head? = some .tick ∧ t.tickPend = true) ∧
    (t.act = s.act ∨ t.act = nextScan s.n.toNat m r)

/-- R71, R226, R181: an activity in progress sends exactly the words it had to send when it began, whatever moves come
between, unless the block is reset. The spec marks R71 as its own inference ("[derived"). -/
def Obligations.ActivitySendsExactlyItsWords : Prop :=
  ∀ s t : State, Inv s → s.act ≠ .idle → notReset s → step s = .next t →
    ∃ p q, pending s = some p ∧ pending t = some q ∧ t.trace ++ q = s.trace ++ p

/-- R73, R179, R251: after a pass, row register r of module m, as far as the trace says, holds the window's byte. The
word's layout and that the no-op changes nothing are PRESUMED, the spec's own general knowledge (log 16). -/
def Obligations.PassShowsTheWindow : Prop :=
  ∀ (s t : State) (m : Nat) (r : Fin 8), s.cfg.valid = true →
    wholePass s = .next t → 1 ≤ m → m ≤ s.n.toNat →
    chipRegister t.trace m (s.cfg.regRow.get r) = fbRead t (((m : Int) - 1) * 8 + ((r.val : Int) + 1) + t.e)

/-- R184 (b), R147: a pass right after CLEAR sends 8·N words, all with data 0.
The spec marks R184 as its own inference ("[derived"). -/
def Obligations.PassAfterClearIsBlank : Prop :=
  ∀ s t : State, s.inited = true → exec .clear s = .next t →
    ∃ u ws, wholePass (tick t) = .next u ∧ u.trace = s.trace ++ ws ∧ ws.length = 8 * s.n.toNat ∧
      ∀ w ∈ ws, w.d = 0

/-- R184 (a), R131, R146 (c): with one glyph a module, in every mode, the pass after a WRITE sends exactly the composed
bytes in order. The spec marks R184 and R131 as its own inference ("[derived"). -/
def Obligations.WrittenGlyphsReachTheDisplay : Prop :=
  ∀ (rot : Rot) (inv : Bool) (glyphs : List Glyph) (s t : State),
    s.inited = true → glyphs.length ≤ s.cfg.gmax → glyphs.length = s.n.toNat →
    exec (.write rot inv (glyphs.map Eight.toList)) s = .next t →
    ∃ u ws, wholePass (tick t) = .next u ∧ u.trace = s.trace ++ ws ∧
      ws.map SendWord.d = compose s.cfg.rotswap rot inv glyphs

/-! ## The machine -/

/-- R90, R108: where the port holds a frame that decodes to i and the command is to start whole, one step is the
meaning of i on the state with the frame taken (and the move taken from the schedule); a frame that does not decode
raises IllegalCommand. With an empty schedule and no tick pending nothing else can start. That a command runs whole in
one step, also where nothing is scheduled, is the model's choice (log 7), and so is the schedule (log 5): R46 leads
through CMD(k), which PhasedCommandEqualsTheWhole is about. -/
def Obligations.StepRunsTheDecodedFrame : Prop :=
  ∀ (s : State) (f : List Byte), s.cfg.valid = true → s.act = .idle → s.frame = some f →
    (∀ rest, s.sched = .run .command :: rest →
      (∀ i, decode f = .ok i → step s = exec i { s with frame := none, sched := rest }) ∧
      (∀ r, decode f = .error r →
        step s = .next (raise .illegalCommand { s with frame := none, sched := rest }))) ∧
    (s.sched = [] → s.tickPend = false →
      (∀ i, decode f = .ok i → step s = exec i { s with frame := none }) ∧
      (∀ r, decode f = .error r → step s = .next (raise .illegalCommand { s with frame := none })))

/-- R76, R225 (a): with a tick pending and a frame ready at an idle block, both orders are runs of the machine, and with
an empty schedule one of the two happens, whichever the free value says. The schedule, the free value with its counter
and the command in one step are the model's (log 5, 6, 7). -/
def Obligations.EitherOperationMayStart : Prop :=
  ∀ (s : State) (f : List Byte), s.cfg.valid = true → s.act = .idle → s.lock = false → s.tickPend = true →
    s.frame = some f →
    (∀ rest, s.sched = .run .command :: rest → step s = runFrame f { s with sched := rest }) ∧
    (∀ rest, s.sched = .run .pass :: rest → step s = .next (passStart { s with sched := rest })) ∧
    (s.sched = [] →
      step s = runFrame f { s with arb := s.arb + 1 } ∨
      step s = .next (passStart { s with arb := s.arb + 1 }))

/-- R142, R143, R74: a command run phase by phase, with nothing arriving in between, ends in the state its whole meaning
gives. -/
def Obligations.PhasedCommandEqualsTheWhole : Prop :=
  ∀ (s t : State) (f : List Byte) (i : Instr), s.cfg.valid = true → s.act = .idle →
    s.frame = some f → decode f = .ok i → s.sched = [.run .commandPhased] →
    exec i { s with frame := none, sched := [] } = .next t →
    ∃ k, steps k s = .next t

/-- R240, R242: the reset input abandons whatever is in progress; the parameters stand, and so do the model's own
schedule and choice counter (log 10). That FB then lists no byte and E is 0, where R241 says unspecified, is the
model's (log 3, 4). -/
def Obligations.ResetInputAbandonsTheActivity : Prop :=
  ∀ (s : State) (rest : List Move), s.cfg.valid = true → s.sched = .rst :: rest →
    step s = .next { State.resetOf s.cfg with sched := rest, arb := s.arb }

/-- R241, R43: the registers and pins after reset. FB and E are unspecified there: of FB the statement says only that
every read is blank, of E nothing (log 3, log 4). -/
def Obligations.ResetValuesAreTheSpecs : Prop :=
  ∀ p : Config,
    let s := State.resetOf p
    s.inited = false ∧ s.n = 0 ∧ s.pin = 0 ∧ s.mode = .off ∧ s.delay = 0 ∧ s.off = 0 ∧ s.dir = .zero ∧ s.cnt = 0 ∧
    s.len = 0 ∧ s.lock = false ∧ s.act = .idle ∧ s.tickPend = false ∧ s.errFlags = 0 ∧ s.trace = [] ∧
    s.responses = [] ∧ s.rx = [] ∧ s.frame = none ∧ (∀ idx, fbRead s idx = some 0) ∧
    s.pins = { inited := false, lock := false, busy := false, tickPending := false, err := 0, selPin := 0,
               cmdReady := true, tx := none }

/-- The invariant holds after reset, in every instance the spec describes (R241: "The reset state satisfies every
invariant"). -/
def Obligations.ResetStateIsInvariant : Prop :=
  ∀ p : Config, p.valid = true → Inv (State.resetOf p)

/-- R35 to R40: every step, whatever it is, keeps the invariant, from every state that has it.
The spec marks R35 to R40 as its own inference ("[derived"). -/
def Obligations.StepKeepsTheInvariant : Prop :=
  ∀ s t : State, Inv s → step s = .next t → Inv t

/-- R222, R249 (nothing tears): from a state with the invariant the machine always has a next state; no FBRead and no
commit ever stops it. -/
def Obligations.InvariantStatesNeverStop : Prop :=
  ∀ s : State, Inv s → ∃ t, step s = .next t

/-- R39, R75: LOCK = 1 only in phases P2 to P4 of a committing command, so never while a pass is in progress.
The spec marks R39 as its own inference ("[derived"). -/
def Obligations.LockIsHeldOnlyInsideACommit : Prop :=
  ∀ s : State, Inv s → s.lock = true →
    ∃ k rest, (k = .init ∨ k = .clear ∨ k = .write) ∧
      ((∃ content, s.act = .cmd k (.replace content :: rest)) ∨ s.act = .cmd k (.scrollReset :: rest) ∨
        s.act = .cmd k (.unlock :: rest))

/-- R31, R20, R25, R28, R33: while no command is half done the values fit their registers: C ≤ 2040, LEN 11 bits, OFF
and the trial value 12 bits two's complement, and in a pass E 12 bits and every index 13 bits. OFF, E and LEN are
unbounded numbers in the model (log 15).
The spec marks R31 as its own inference ("[derived"). -/
def Obligations.RegisterWidthsSuffice : Prop :=
  ∀ s : State, Inv s → (∀ k todo, s.act ≠ .cmd k todo) →
    s.c ≤ 2040 ∧ s.len ≤ 2040 ∧ -2040 ≤ s.off ∧ s.off ≤ 2040 ∧
    -2041 ≤ s.off + s.dir.toInt ∧ s.off + s.dir.toInt ≤ 2041 ∧
    ∀ m r, s.act = .scan m r →
      -2040 ≤ s.e ∧ s.e ≤ 2040 ∧ -2039 ≤ scanIndex s.e m r ∧ scanIndex s.e m r ≤ 4080

/-- R28, R61 and the canonical form of the model's memory: at every moment, inside a command too.
The spec marks R38 as its own inference ("[derived"). -/
def Obligations.BufferKeepsItsCanonicalForm : Prop :=
  ∀ s t : State, Inv s → step s = .next t →
    t.fb.wf = true ∧ t.fb.within t.cfg.lmax = true ∧ t.fb.length = t.len

/-- R141, R20 to R24, R22: who writes what. Without a reset, a register changes in a step only where the phase that
writes it runs or the frame of a command that writes it starts whole. -/
def Obligations.EachRegisterHasItsWriters : Prop :=
  ∀ s t : State, notReset s → step s = .next t →
    let starts := fun i => s.act = .idle ∧ ∃ f, s.frame = some f ∧ decode f = .ok i
    let configures := ∃ k n p mm dd rest, s.act = .cmd k (.configure n p mm dd :: rest)
    let initStarts := ∃ nn pp ii mm dd, starts (.init nn pp ii mm dd)
    ((t.n ≠ s.n ∨ t.pin ≠ s.pin) → configures ∨ initStarts) ∧
    ((t.mode ≠ s.mode ∨ t.delay ≠ s.delay) → configures ∨ initStarts ∨
      (∃ k mm dd rest, s.act = .cmd k (.setScroll mm dd :: rest)) ∨ (∃ mm dd, starts (.setscroll mm dd))) ∧
    ((t.fb ≠ s.fb ∨ t.len ≠ s.len) →
      (∃ k content rest, s.act = .cmd k (.replace content :: rest)) ∨ initStarts ∨ starts .clear ∨
        (∃ rot inv records, starts (.write rot inv records))) ∧
    (t.inited ≠ s.inited → t.inited = true ∧ ((∃ k rest, s.act = .cmd k (.start :: rest)) ∨ initStarts))

/-- R34, R236: without a reset no step clears an error flag. The spec marks R236 as its own inference ("[derived"). -/
def Obligations.ErrorFlagsAreSticky : Prop :=
  ∀ (s t : State) (e : Err), notReset s → step s = .next t → errFlag e s.errFlags = true → errFlag e t.errFlags = true

/-- R69, R91, R257: the output trace and the list of responses are empty after reset, and without a reset they only
grow, by at most one response a step. The list of responses is the model's form of the rsp_valid pulses (log 13). -/
def Obligations.OutputsOnlyGrow : Prop :=
  (∀ p, (State.resetOf p).trace = [] ∧ (State.resetOf p).responses = []) ∧
  ∀ s t : State, notReset s → step s = .next t →
    (∃ ws, t.trace = s.trace ++ ws) ∧ (t.responses = s.responses ∨ ∃ c, t.responses = s.responses ++ [c])

/-- R228, R229, R246: without a reset a block that runs goes on running; no step at all changes a parameter.
The spec marks R229 as its own inference ("[derived"). -/
def Obligations.RunModeIsLeftByResetOnly : Prop :=
  ∀ s t : State, step s = .next t →
    t.cfg = s.cfg ∧ (notReset s → s.inited = true → t.inited = true)

/-- R256, R79: left to itself, a command in progress answers and releases the lock within its phases and one step, and
a pass in progress ends within its rows. -/
def Obligations.ActivitiesEnd : Prop :=
  ∀ s : State, Inv s → s.sched = [] →
    (∀ k todo, s.act = .cmd k todo → ∃ t, steps (todo.length + 1) s = .next t ∧ t.act = .idle ∧ t.lock = false ∧
      t.responses = s.responses ++ [.ok]) ∧
    (∀ m r, s.act = .scan m r → ∃ t, steps (8 * (s.n.toNat - m) + (8 - r.val)) s = .next t ∧ t.act = .idle)

/-! ## The outside -/

/-- R73, R109: a SendWord is one latched transaction of N words, the addressed module's `reg ++ d` and the no-op for
every other; as far as the trace says it sets that register of that chip and changes nothing else. The word's layout
and that the no-op changes nothing are PRESUMED, the spec's own general knowledge (log 16). -/
def Obligations.TransactionReachesOneChip : Prop :=
  ∀ (n : Nat) (w : SendWord) (trace : List SendWord),
    (latchedWords n w).length = n ∧
    (∀ j, j < n → (latchedWords n w)[j]? = some (if j + 1 = w.m then w.reg ++ w.d else 0#16)) ∧
    (w.reg ≠ 0 → ∀ m reg, chipRegister (trace ++ [w]) m reg =
      if m = w.m ∧ reg = w.reg then some w.d else chipRegister trace m reg)

/-- R43, R91: the status pins are copies of registers; `cmd_ready` is 1 exactly when the block is idle or a frame is
being received, and no complete frame waits, the last as the model reads R91 (log 8). -/
def Obligations.PinsAreCopies : Prop :=
  ∀ s : State,
    s.pins.inited = s.inited ∧ s.pins.lock = s.lock ∧ (s.pins.busy = true ↔ s.act ≠ .idle) ∧
    s.pins.tickPending = s.tickPend ∧ s.pins.err = s.errFlags ∧ s.pins.selPin = s.pin ∧
    (s.pins.cmdReady = true ↔ s.frame = none ∧ (s.act = .idle ∨ s.rx ≠ []))

/-- R196: "The block never emits REG_NOOP in a SendWord", and it sends to the thirteen registers of the rule only.
An instance in which one of those has the no-op's number is refused (log 2). -/
def Obligations.NoopRegisterIsNeverSent : Prop :=
  ∀ s t : State, Inv s → step s = .next t → ∀ w ∈ t.trace,
    w.reg ≠ Config.regNoop ∧
      ((∃ r, w.reg = t.cfg.regRow.get r) ∨ w.reg = t.cfg.regDecode ∨ w.reg = t.cfg.regIntensity ∨
        w.reg = t.cfg.regScanLimit ∨ w.reg = t.cfg.regShutdown ∨ w.reg = t.cfg.regDispTest)

/-! ## Progress of a pending tick -/

/-- R256: with HOST quiet a pending tick is served, after at most the activity in progress and the one frame waiting:
the pass starts, unless an INIT in between drops the tick (R198). That HOST is quiet is the premise of R256 the model
takes (log 22); the free value is not assumed fair, and with it no command comes before the pass twice. -/
def Obligations.PendingTickIsServed : Prop :=
  ∀ s : State, Inv s → s.sched = [] → s.tickPend = true →
    ∃ k t, steps k s = .next t ∧ t.tickPend = false ∧
      k ≤ 2 + (match s.act with
        | .idle => 0
        | .cmd _ todo => todo.length + 1
        | .scan m r => 8 * (s.n.toNat - m) + (8 - r.val)) ∧
      (t.act = .scan 1 0 ∨ (∃ c todo, s.act = .cmd c todo ∧ Phase.start ∈ todo) ∨
        ∃ f nn pp ii mm dd, s.frame = some f ∧ decode f = .ok (.init nn pp ii mm dd))
end

