-- ==== Sys2Proof/Laws/Bus.lean ====
section
/-! SUPPORT. The two halves of a bus word, and what a word does to one chip register. -/

namespace Sys2Proof.Machine

open Sys2Proof

/-- Bits 15..8 of a word are its register byte (R109). -/
theorem busWord_reg (a b : Byte) : (busWord a b).extractLsb' 8 8 = a := by
  ext i hi
  have h := BitVec.getLsbD_append (x := a) (y := b) (i := 8 + i)
  rw [if_neg (by omega), Nat.add_sub_cancel_left, BitVec.getLsbD_eq_getElem hi] at h
  simpa [busWord] using h

/-- Bits 7..0 of a word are its data byte (R109). -/
theorem busWord_data (a b : Byte) : (busWord a b).extractLsb' 0 8 = b := by
  ext i hi
  have h := BitVec.getLsbD_append (x := a) (y := b) (i := i)
  rw [if_pos hi, BitVec.getLsbD_eq_getElem hi] at h
  simpa [busWord] using h

/-- A word sets the register it names, unless that is the no-op (R73). -/
theorem chipLatch_busWord (reg : Byte) (old : Option Byte) (a b : Byte) :
    chipLatch reg old (busWord a b) = if a ≠ 0 ∧ a = reg then some b else old := by
  unfold chipLatch
  rw [busWord_reg, busWord_data]
  rfl

end Sys2Proof.Machine
end

