-- ==== Sys2Proof/Laws/Decode.lean ====
section
/-! SUPPORT. The decoder's parts: each field decoder against its encoder. -/

namespace Sys2Proof

/-- A mode byte decodes to its mode (R96). -/
theorem modeOf_modeByte (m : Mode) : modeOf (modeByte m) = some m := by cases m <;> decide

/-- Only its mode byte decodes to a mode (R96). -/
theorem modeOf_eq_some {b : Byte} {m : Mode} (h : modeOf b = some m) : b = modeByte m := by
  unfold modeOf at h
  split_ifs at h <;> cases h <;> simp_all [modeByte]

/-- A mode byte is below the reserved values (R105). -/
theorem modeByte_lt (m : Mode) : (modeByte m).toNat < 4 := by cases m <;> decide

/-- A length byte gives the length back (R98). -/
theorem toNat_lengthByte (n : Nat) (h : n ≤ 255) : (BitVec.ofNat 8 n).toNat = n := by
  rw [BitVec.toNat_ofNat]
  omega

/-- Encoded records parse to themselves (R98). -/
theorem parseRecords_encode (records : List (List Byte)) (h : ∀ r ∈ records, r.length ≤ 255) :
    parseRecords records.length (records.flatMap encodeRecord) = some records := by
  induction records with
  | nil => rfl
  | cons r rest ih =>
    have := ih fun x hx => h x (by simp [hx])
    simp only [List.flatMap_cons, List.length_cons, encodeRecord, List.cons_append, parseRecords,
      toNat_lengthByte _ (h r (by simp))]
    rw [if_pos (by simp)]
    simp [this]

/-- What parses is the encoding of what it parses to (R98): the records exactly fill the bytes. -/
theorem parseRecords_eq_some {g : Nat} {l : List Byte} {records : List (List Byte)}
    (h : parseRecords g l = some records) :
    records.length = g ∧ (∀ r ∈ records, r.length ≤ 255) ∧ l = records.flatMap encodeRecord := by
  induction g generalizing l records with
  | zero =>
    cases l with
    | nil => simp only [parseRecords, Option.some.injEq] at h; subst h; simp
    | cons a l => simp [parseRecords] at h
  | succ g ih =>
    cases l with
    | nil => simp [parseRecords] at h
    | cons len rest =>
      simp only [parseRecords] at h
      split at h
      · rename_i hle
        rw [Option.map_eq_some_iff] at h
        obtain ⟨rs, h1, rfl⟩ := h
        obtain ⟨h2, h3, h4⟩ := ih h1
        have hlen : (rest.take len.toNat).length = len.toNat := by simp [hle]
        refine ⟨by simp [h2], ?_, ?_⟩
        · intro r hr
          rcases List.mem_cons.mp hr with rfl | hr
          · have := len.isLt
            omega
          · exact h3 r hr
        · simp only [List.flatMap_cons, encodeRecord, hlen, List.cons_append]
          rw [← h4, List.take_append_drop]
          simp
      · cases h

/-- The WRITE opcode byte matches its row of R94 and no row before it, and its fields read back (R98). -/
theorem writeOpcode_facts (rot : Rot) (inv : Bool) :
    writeOpcode rot inv ≠ 0x10 ∧ writeOpcode rot inv ≠ 0x20 ∧ writeOpcode rot inv ≠ 0x30 ∧
      writeOpcode rot inv &&& 0xF8 = 0x40 ∧ rotOf (writeOpcode rot inv) = some rot ∧
      (writeOpcode rot inv).getLsbD 2 = inv := by
  cases rot <;> cases inv <;> decide

/-- A byte of the WRITE row is the opcode byte of its own fields (R98). -/
theorem eq_writeOpcode (b : Byte) (rot : Rot) (h1 : b &&& 0xF8 = 0x40) (h2 : rotOf b = some rot) :
    b = writeOpcode rot (b.getLsbD 2) := by
  have h : ∀ b : Byte, b &&& 0xF8 = 0x40 →
      rotOf b = none ∨ ∃ r ∈ [Rot.none, Rot.left, Rot.right], rotOf b = some r ∧
        b = writeOpcode r (b.getLsbD 2) := by decide
  rcases h b h1 with h | ⟨r, -, h3, h4⟩
  · rw [h] at h2; cases h2
  · rw [h3] at h2; cases h2; exact h4

/-- A byte of the SETPWR row is one of the two (R100). -/
theorem eq_setpwrOpcode (b : Byte) (h : b &&& 0xFE = 0x60) : b = if b.getLsbD 0 then 0x61 else 0x60 := by
  revert h; revert b; decide

end Sys2Proof
end

