-- ==== Sys2Proof/Laws/Geometry.lean ====
section
/-! SUPPORT. The geometry read bit by bit: enough to prove any law of 40_geometry.md without unfolding it. -/

namespace Sys2Proof

@[simp] theorem Eight.get_ofFn {α : Type} (f : Fin 8 → α) (i : Fin 8) : (Eight.ofFn f).get i = f i := by
  fin_cases i <;> rfl

/-- Two groups of eight are equal where they agree at every number. -/
theorem Eight.eq_of_get {α : Type} {a b : Eight α} (h : ∀ i, a.get i = b.get i) : a = b := by
  obtain ⟨a1, a2, a3, a4, a5, a6, a7, a8⟩ := a
  obtain ⟨b1, b2, b3, b4, b5, b6, b7, b8⟩ := b
  have h1 : a1 = b1 := h 0
  have h2 : a2 = b2 := h 1
  have h3 : a3 = b3 := h 2
  have h4 : a4 = b4 := h 3
  have h5 : a5 = b5 := h 4
  have h6 : a6 = b6 := h 5
  have h7 : a7 = b7 := h 6
  have h8 : a8 = b8 := h 7
  subst h1 h2 h3 h4 h5 h6 h7 h8
  rfl

/-- The sequence of a group of eight, element by element. -/
theorem Eight.toList_getElem? {α : Type} (g : Eight α) (i : Fin 8) : g.toList[i.val]? = some (g.get i) := by
  fin_cases i <;> rfl

/-- Two bytes are equal where all bits are. -/
theorem byte_eq_of_bits {a b : Byte} (h : ∀ k : Fin 8, a.getLsbD k.val = b.getLsbD k.val) : a = b :=
  BitVec.eq_of_getLsbD_eq fun k hk => h ⟨k, hk⟩

end Sys2Proof

namespace Sys2Proof.Machine

open Sys2Proof

/-- Bit k of the byte made of the bits `f`. -/
theorem getLsbD_byteOfBits (f : Fin 8 → Bool) (k : Fin 8) : (byteOfBits f).getLsbD k.val = f k := by
  unfold byteOfBits
  simp only [BitVec.getLsbD_append]
  fin_cases k <;> simp

/-- Two glyphs are equal where all bits of all rows are. -/
theorem glyph_eq_of_bits {a b : Glyph} (h : ∀ r k : Fin 8, (a.get r).getLsbD k.val = (b.get r).getLsbD k.val) :
    a = b :=
  Eight.eq_of_get fun r => byte_eq_of_bits (h r)

/-- R120, bit by bit. -/
theorem getLsbD_reverseBits (b : Byte) (k : Fin 8) : (reverseBits b).getLsbD k.val = b.getLsbD (7 - k.val) :=
  getLsbD_byteOfBits _ k

/-- R122, bit by bit; `Fin.rev r` is 8 − (r + 1). -/
theorem getLsbD_rotL (a : Glyph) (r k : Fin 8) :
    ((rotL a).get r).getLsbD k.val = (a.get k).getLsbD r.rev.val := by
  rw [rotL, Eight.get_ofFn, getLsbD_byteOfBits, Fin.val_rev]

/-- R123, bit by bit. -/
theorem getLsbD_rotR (a : Glyph) (r k : Fin 8) :
    ((rotR a).get r).getLsbD k.val = (a.get k.rev).getLsbD r.val := by
  rw [rotR, Eight.get_ofFn, getLsbD_byteOfBits, Nat.add_sub_cancel]

/-- The half turn, bit by bit (R126 (c)). -/
theorem getLsbD_halfTurn (a : Glyph) (r k : Fin 8) :
    ((halfTurn a).get r).getLsbD k.val = (a.get r.rev).getLsbD k.rev.val := by
  rw [halfTurn, Eight.get_ofFn, getLsbD_reverseBits, Fin.val_rev]
  congr 1
  omega

end Sys2Proof.Machine
end

