-- ==== Sys2Proof/Laws/Memory.lean ====
section
/-! SUPPORT. The frame buffer: what a replaced buffer holds, its canonical form, and what FBRead answers. -/

namespace Sys2Proof.Machine

open Sys2Proof

theorem cellsFrom_keys (i : Nat) (content : List Byte) :
    (cellsFrom i content).map Prod.fst = List.range' i content.length := by
  induction content generalizing i with
  | nil => rfl
  | cons b rest ih => simp [cellsFrom, ih, List.range'_succ]

/-- The buffer holds exactly the indices 1..len(content). -/
@[simp] theorem ofContent_keys (content : List Byte) :
    (Memory.ofContent content).map Prod.fst = List.range' 1 content.length :=
  cellsFrom_keys 1 content

theorem cellsFrom_lookup (i a : Nat) (content : List Byte) :
    (cellsFrom i content).lookup a = if i ≤ a then content[a - i]? else none := by
  induction content generalizing i with
  | nil => simp [cellsFrom]
  | cons b rest ih =>
    simp only [cellsFrom, List.lookup_cons, ih]
    rcases Nat.lt_trichotomy i a with h | h | h
    · have hne : (a == i) = false := by simp; omega
      rw [hne, if_pos (by omega), if_pos (by omega), List.getElem?_cons]
      simp [show a - i ≠ 0 by omega, show a - i - 1 = a - (i + 1) by omega]
    · subst h; simp
    · have hne : (a == i) = false := by simp; omega
      rw [hne, if_neg (by omega), if_neg (by omega)]

/-- A read of one byte of a replaced buffer: FB[a] = content[a], 1-based (R142). -/
theorem ofContent_read (content : List Byte) (a : Nat) :
    (Memory.ofContent content).read a = if 1 ≤ a then content[a - 1]? else none :=
  cellsFrom_lookup 1 a content

/-- A memory whose indices are 1..n is in canonical form. -/
theorem wf_of_keys (i n : Nat) (m : Memory) (h : m.map Prod.fst = List.range' i n) : m.wf = true := by
  induction m generalizing i n with
  | nil => rfl
  | cons a rest ih =>
    cases n with
    | zero => simp at h
    | succ n =>
      simp only [List.map_cons, List.range'_succ, List.cons.injEq] at h
      cases rest with
      | nil => rfl
      | cons b rest' =>
        have hb := ih (i + 1) n h.2
        cases n with
        | zero => simp at h
        | succ n =>
          simp only [List.map_cons, List.range'_succ, List.cons.injEq] at h
          simp [Memory.wf, hb, h.1, h.2.1]

/-- Replacing the buffer keeps the canonical form, whatever stood there. -/
theorem ofContent_wf (content : List Byte) : (Memory.ofContent content).wf = true :=
  wf_of_keys 1 content.length _ (ofContent_keys content)

theorem lookup_of_mem_keys (m : Memory) (a : Nat) (h : a ∈ m.map Prod.fst) : ∃ b, m.lookup a = some b := by
  induction m with
  | nil => simp at h
  | cons x rest ih =>
    rw [List.lookup_cons]
    by_cases hx : a = x.1
    · subst hx; exact ⟨x.2, by simp⟩
    · have : a ∈ rest.map Prod.fst := by simpa [hx] using h
      have hne : (a == x.1) = false := by simpa using hx
      rw [hne]
      exact ih this

/-- FBRead answers a byte for every integer index where FB holds exactly FB[1..LEN]: an out-of-range index is blank and
no fault (R64, R222). -/
theorem fbRead_total (s : State) (h : s.fb.map Prod.fst = List.range' 1 s.len) (idx : Int) :
    ∃ d, fbRead s idx = some d := by
  unfold fbRead
  split
  · rename_i hr
    apply lookup_of_mem_keys
    rw [h, List.mem_range'_1]
    omega
  · exact ⟨0, rfl⟩

/-- FBRead depends on FB and LEN only. -/
theorem fbRead_congr {s t : State} (hfb : t.fb = s.fb) (hlen : t.len = s.len) (idx : Int) :
    fbRead t idx = fbRead s idx := by
  simp [fbRead, hfb, hlen]

/-- What FBRead answers where FB is a committed content: byte `idx` of it, 1-based, and blank outside (R64, R144). -/
theorem fbRead_of_content (s : State) (content : List Byte) (hfb : s.fb = Memory.ofContent content)
    (hlen : s.len = content.length) (idx : Int) :
    fbRead s idx = some (if 1 ≤ idx then content.getD (idx.toNat - 1) 0 else 0) := by
  unfold fbRead
  rw [hfb, ofContent_read, hlen]
  by_cases h1 : 1 ≤ idx
  · have h1' : 1 ≤ idx.toNat := by omega
    simp only [h1, true_and, if_true, h1', List.getD_eq_getElem?_getD]
    by_cases h2 : idx ≤ content.length
    · rw [if_pos h2, List.getElem?_eq_getElem (by omega)]
      simp
    · rw [if_neg h2, List.getElem?_eq_none (by omega)]
      simp
  · simp [h1]

end Sys2Proof.Machine
end

