-- ==== Sys2Proof/Laws/State.lean ====
section
/-! SUPPORT. One lemma per update of State: every field after it. -/

namespace Sys2Proof.Machine

open Sys2Proof

/-- What `emit` writes, field by field (R72). -/
@[simp] theorem emit_fields (s : State) (w : SendWord) :
    (emit w s).cfg = s.cfg ∧ (emit w s).inited = s.inited ∧ (emit w s).n = s.n ∧ (emit w s).pin = s.pin ∧
    (emit w s).mode = s.mode ∧ (emit w s).delay = s.delay ∧ (emit w s).off = s.off ∧ (emit w s).dir = s.dir ∧
    (emit w s).cnt = s.cnt ∧ (emit w s).len = s.len ∧ (emit w s).fb = s.fb ∧ (emit w s).lock = s.lock ∧
    (emit w s).act = s.act ∧ (emit w s).tickPend = s.tickPend ∧ (emit w s).e = s.e ∧
    (emit w s).errFlags = s.errFlags ∧ (emit w s).trace = s.trace ++ [w] ∧ (emit w s).responses = s.responses ∧
    (emit w s).rx = s.rx ∧ (emit w s).frame = s.frame ∧ (emit w s).sched = s.sched ∧ (emit w s).arb = s.arb :=
  ⟨rfl, rfl, rfl, rfl, rfl, rfl, rfl, rfl, rfl, rfl, rfl, rfl, rfl, rfl, rfl, rfl, rfl, rfl, rfl, rfl, rfl, rfl⟩

/-- What `broadcast` writes, field by field (R195). -/
@[simp] theorem broadcast_fields (s : State) (reg d : Byte) :
    (broadcast reg d s).cfg = s.cfg ∧ (broadcast reg d s).inited = s.inited ∧ (broadcast reg d s).n = s.n ∧
    (broadcast reg d s).pin = s.pin ∧ (broadcast reg d s).mode = s.mode ∧ (broadcast reg d s).delay = s.delay ∧
    (broadcast reg d s).off = s.off ∧ (broadcast reg d s).dir = s.dir ∧ (broadcast reg d s).cnt = s.cnt ∧
    (broadcast reg d s).len = s.len ∧ (broadcast reg d s).fb = s.fb ∧ (broadcast reg d s).lock = s.lock ∧
    (broadcast reg d s).act = s.act ∧ (broadcast reg d s).tickPend = s.tickPend ∧ (broadcast reg d s).e = s.e ∧
    (broadcast reg d s).errFlags = s.errFlags ∧
    (broadcast reg d s).trace = s.trace ++ broadcastWords s.n.toNat reg d ∧
    (broadcast reg d s).responses = s.responses ∧ (broadcast reg d s).rx = s.rx ∧
    (broadcast reg d s).frame = s.frame ∧ (broadcast reg d s).sched = s.sched ∧ (broadcast reg d s).arb = s.arb :=
  ⟨rfl, rfl, rfl, rfl, rfl, rfl, rfl, rfl, rfl, rfl, rfl, rfl, rfl, rfl, rfl, rfl, rfl, rfl, rfl, rfl, rfl, rfl⟩

/-- What `respondOk` writes, field by field (R91). -/
@[simp] theorem respondOk_fields (s : State) :
    (respondOk s).cfg = s.cfg ∧ (respondOk s).inited = s.inited ∧ (respondOk s).n = s.n ∧
    (respondOk s).pin = s.pin ∧ (respondOk s).mode = s.mode ∧ (respondOk s).delay = s.delay ∧
    (respondOk s).off = s.off ∧ (respondOk s).dir = s.dir ∧ (respondOk s).cnt = s.cnt ∧
    (respondOk s).len = s.len ∧ (respondOk s).fb = s.fb ∧ (respondOk s).lock = s.lock ∧
    (respondOk s).act = .idle ∧ (respondOk s).tickPend = s.tickPend ∧ (respondOk s).e = s.e ∧
    (respondOk s).errFlags = s.errFlags ∧ (respondOk s).trace = s.trace ∧
    (respondOk s).responses = s.responses ++ [.ok] ∧ (respondOk s).rx = s.rx ∧ (respondOk s).frame = s.frame ∧
    (respondOk s).sched = s.sched ∧ (respondOk s).arb = s.arb :=
  ⟨rfl, rfl, rfl, rfl, rfl, rfl, rfl, rfl, rfl, rfl, rfl, rfl, rfl, rfl, rfl, rfl, rfl, rfl, rfl, rfl, rfl, rfl⟩

/-- What `raise` writes, field by field (R214: only ERRFLAGS, the response and ACT). -/
@[simp] theorem raise_fields (s : State) (e : Err) :
    (raise e s).cfg = s.cfg ∧ (raise e s).inited = s.inited ∧ (raise e s).n = s.n ∧ (raise e s).pin = s.pin ∧
    (raise e s).mode = s.mode ∧ (raise e s).delay = s.delay ∧ (raise e s).off = s.off ∧
    (raise e s).dir = s.dir ∧ (raise e s).cnt = s.cnt ∧ (raise e s).len = s.len ∧ (raise e s).fb = s.fb ∧
    (raise e s).lock = s.lock ∧ (raise e s).act = .idle ∧ (raise e s).tickPend = s.tickPend ∧
    (raise e s).e = s.e ∧ (raise e s).errFlags = setErrFlag e s.errFlags ∧ (raise e s).trace = s.trace ∧
    (raise e s).responses = s.responses ++ [.error e] ∧ (raise e s).rx = s.rx ∧ (raise e s).frame = s.frame ∧
    (raise e s).sched = s.sched ∧ (raise e s).arb = s.arb :=
  ⟨rfl, rfl, rfl, rfl, rfl, rfl, rfl, rfl, rfl, rfl, rfl, rfl, rfl, rfl, rfl, rfl, rfl, rfl, rfl, rfl, rfl, rfl⟩

/-- What `scrollReset` writes, field by field (R157: only OFF, DIR and CNT). -/
@[simp] theorem scrollReset_fields (s : State) :
    (scrollReset s).cfg = s.cfg ∧ (scrollReset s).inited = s.inited ∧ (scrollReset s).n = s.n ∧
    (scrollReset s).pin = s.pin ∧ (scrollReset s).mode = s.mode ∧ (scrollReset s).delay = s.delay ∧
    (scrollReset s).off = resetOff s.mode s.len ∧ (scrollReset s).dir = resetDir s.mode ∧
    (scrollReset s).cnt = s.delay ∧ (scrollReset s).len = s.len ∧ (scrollReset s).fb = s.fb ∧
    (scrollReset s).lock = s.lock ∧ (scrollReset s).act = s.act ∧ (scrollReset s).tickPend = s.tickPend ∧
    (scrollReset s).e = s.e ∧ (scrollReset s).errFlags = s.errFlags ∧ (scrollReset s).trace = s.trace ∧
    (scrollReset s).responses = s.responses ∧ (scrollReset s).rx = s.rx ∧ (scrollReset s).frame = s.frame ∧
    (scrollReset s).sched = s.sched ∧ (scrollReset s).arb = s.arb :=
  ⟨rfl, rfl, rfl, rfl, rfl, rfl, rfl, rfl, rfl, rfl, rfl, rfl, rfl, rfl, rfl, rfl, rfl, rfl, rfl, rfl, rfl, rfl⟩

/-- What `lockBuffer` writes, field by field (R142, P1). -/
@[simp] theorem lockBuffer_fields (s : State) :
    (lockBuffer s).cfg = s.cfg ∧ (lockBuffer s).inited = s.inited ∧ (lockBuffer s).n = s.n ∧
    (lockBuffer s).pin = s.pin ∧ (lockBuffer s).mode = s.mode ∧ (lockBuffer s).delay = s.delay ∧
    (lockBuffer s).off = s.off ∧ (lockBuffer s).dir = s.dir ∧ (lockBuffer s).cnt = s.cnt ∧
    (lockBuffer s).len = s.len ∧ (lockBuffer s).fb = s.fb ∧ (lockBuffer s).lock = true ∧
    (lockBuffer s).act = s.act ∧ (lockBuffer s).tickPend = s.tickPend ∧ (lockBuffer s).e = s.e ∧
    (lockBuffer s).errFlags = s.errFlags ∧ (lockBuffer s).trace = s.trace ∧
    (lockBuffer s).responses = s.responses ∧ (lockBuffer s).rx = s.rx ∧ (lockBuffer s).frame = s.frame ∧
    (lockBuffer s).sched = s.sched ∧ (lockBuffer s).arb = s.arb :=
  ⟨rfl, rfl, rfl, rfl, rfl, rfl, rfl, rfl, rfl, rfl, rfl, rfl, rfl, rfl, rfl, rfl, rfl, rfl, rfl, rfl, rfl, rfl⟩

/-- What `unlockBuffer` writes, field by field (R142, P4). -/
@[simp] theorem unlockBuffer_fields (s : State) :
    (unlockBuffer s).cfg = s.cfg ∧ (unlockBuffer s).inited = s.inited ∧ (unlockBuffer s).n = s.n ∧
    (unlockBuffer s).pin = s.pin ∧ (unlockBuffer s).mode = s.mode ∧ (unlockBuffer s).delay = s.delay ∧
    (unlockBuffer s).off = s.off ∧ (unlockBuffer s).dir = s.dir ∧ (unlockBuffer s).cnt = s.cnt ∧
    (unlockBuffer s).len = s.len ∧ (unlockBuffer s).fb = s.fb ∧ (unlockBuffer s).lock = false ∧
    (unlockBuffer s).act = s.act ∧ (unlockBuffer s).tickPend = s.tickPend ∧ (unlockBuffer s).e = s.e ∧
    (unlockBuffer s).errFlags = s.errFlags ∧ (unlockBuffer s).trace = s.trace ∧
    (unlockBuffer s).responses = s.responses ∧ (unlockBuffer s).rx = s.rx ∧ (unlockBuffer s).frame = s.frame ∧
    (unlockBuffer s).sched = s.sched ∧ (unlockBuffer s).arb = s.arb :=
  ⟨rfl, rfl, rfl, rfl, rfl, rfl, rfl, rfl, rfl, rfl, rfl, rfl, rfl, rfl, rfl, rfl, rfl, rfl, rfl, rfl, rfl, rfl⟩

/-- What `configure` writes, field by field (R198, first step). -/
@[simp] theorem configure_fields (s : State) (n pin : Byte) (mode : Mode) (delay : Byte) :
    (configure n pin mode delay s).cfg = s.cfg ∧ (configure n pin mode delay s).inited = s.inited ∧
    (configure n pin mode delay s).n = n ∧ (configure n pin mode delay s).pin = pin ∧
    (configure n pin mode delay s).mode = mode ∧ (configure n pin mode delay s).delay = delay ∧
    (configure n pin mode delay s).off = s.off ∧ (configure n pin mode delay s).dir = s.dir ∧
    (configure n pin mode delay s).cnt = s.cnt ∧ (configure n pin mode delay s).len = s.len ∧
    (configure n pin mode delay s).fb = s.fb ∧ (configure n pin mode delay s).lock = s.lock ∧
    (configure n pin mode delay s).act = s.act ∧ (configure n pin mode delay s).tickPend = s.tickPend ∧
    (configure n pin mode delay s).e = s.e ∧ (configure n pin mode delay s).errFlags = s.errFlags ∧
    (configure n pin mode delay s).trace = s.trace ∧ (configure n pin mode delay s).responses = s.responses ∧
    (configure n pin mode delay s).rx = s.rx ∧ (configure n pin mode delay s).frame = s.frame ∧
    (configure n pin mode delay s).sched = s.sched ∧ (configure n pin mode delay s).arb = s.arb :=
  ⟨rfl, rfl, rfl, rfl, rfl, rfl, rfl, rfl, rfl, rfl, rfl, rfl, rfl, rfl, rfl, rfl, rfl, rfl, rfl, rfl, rfl, rfl⟩

/-- What `startRun` writes, field by field (R198). -/
@[simp] theorem startRun_fields (s : State) :
    (startRun s).cfg = s.cfg ∧ (startRun s).inited = true ∧ (startRun s).n = s.n ∧ (startRun s).pin = s.pin ∧
    (startRun s).mode = s.mode ∧ (startRun s).delay = s.delay ∧ (startRun s).off = s.off ∧
    (startRun s).dir = s.dir ∧ (startRun s).cnt = s.cnt ∧ (startRun s).len = s.len ∧ (startRun s).fb = s.fb ∧
    (startRun s).lock = s.lock ∧ (startRun s).act = s.act ∧ (startRun s).tickPend = false ∧
    (startRun s).e = s.e ∧ (startRun s).errFlags = s.errFlags ∧ (startRun s).trace = s.trace ∧
    (startRun s).responses = s.responses ∧ (startRun s).rx = s.rx ∧ (startRun s).frame = s.frame ∧
    (startRun s).sched = s.sched ∧ (startRun s).arb = s.arb :=
  ⟨rfl, rfl, rfl, rfl, rfl, rfl, rfl, rfl, rfl, rfl, rfl, rfl, rfl, rfl, rfl, rfl, rfl, rfl, rfl, rfl, rfl, rfl⟩

/-- What `setScroll` writes, field by field (R165). -/
@[simp] theorem setScroll_fields (s : State) (mode : Mode) (delay : Byte) :
    (setScroll mode delay s).cfg = s.cfg ∧ (setScroll mode delay s).inited = s.inited ∧
    (setScroll mode delay s).n = s.n ∧ (setScroll mode delay s).pin = s.pin ∧
    (setScroll mode delay s).mode = mode ∧ (setScroll mode delay s).delay = delay ∧
    (setScroll mode delay s).off = resetOff mode s.len ∧ (setScroll mode delay s).dir = resetDir mode ∧
    (setScroll mode delay s).cnt = delay ∧ (setScroll mode delay s).len = s.len ∧
    (setScroll mode delay s).fb = s.fb ∧ (setScroll mode delay s).lock = s.lock ∧
    (setScroll mode delay s).act = s.act ∧ (setScroll mode delay s).tickPend = s.tickPend ∧
    (setScroll mode delay s).e = s.e ∧ (setScroll mode delay s).errFlags = s.errFlags ∧
    (setScroll mode delay s).trace = s.trace ∧ (setScroll mode delay s).responses = s.responses ∧
    (setScroll mode delay s).rx = s.rx ∧ (setScroll mode delay s).frame = s.frame ∧
    (setScroll mode delay s).sched = s.sched ∧ (setScroll mode delay s).arb = s.arb :=
  ⟨rfl, rfl, rfl, rfl, rfl, rfl, rfl, rfl, rfl, rfl, rfl, rfl, rfl, rfl, rfl, rfl, rfl, rfl, rfl, rfl, rfl, rfl⟩

/-- What `takeFrame` writes, field by field (R90). -/
@[simp] theorem takeFrame_fields (s : State) :
    (takeFrame s).cfg = s.cfg ∧ (takeFrame s).inited = s.inited ∧ (takeFrame s).n = s.n ∧
    (takeFrame s).pin = s.pin ∧ (takeFrame s).mode = s.mode ∧ (takeFrame s).delay = s.delay ∧
    (takeFrame s).off = s.off ∧ (takeFrame s).dir = s.dir ∧ (takeFrame s).cnt = s.cnt ∧
    (takeFrame s).len = s.len ∧ (takeFrame s).fb = s.fb ∧ (takeFrame s).lock = s.lock ∧
    (takeFrame s).act = s.act ∧ (takeFrame s).tickPend = s.tickPend ∧ (takeFrame s).e = s.e ∧
    (takeFrame s).errFlags = s.errFlags ∧ (takeFrame s).trace = s.trace ∧
    (takeFrame s).responses = s.responses ∧ (takeFrame s).rx = s.rx ∧ (takeFrame s).frame = none ∧
    (takeFrame s).sched = s.sched ∧ (takeFrame s).arb = s.arb :=
  ⟨rfl, rfl, rfl, rfl, rfl, rfl, rfl, rfl, rfl, rfl, rfl, rfl, rfl, rfl, rfl, rfl, rfl, rfl, rfl, rfl, rfl, rfl⟩

/-- What `placeFrame` writes, field by field (log 14). -/
@[simp] theorem placeFrame_fields (s : State) (f : List Byte) :
    (placeFrame f s).cfg = s.cfg ∧ (placeFrame f s).inited = s.inited ∧ (placeFrame f s).n = s.n ∧
    (placeFrame f s).pin = s.pin ∧ (placeFrame f s).mode = s.mode ∧ (placeFrame f s).delay = s.delay ∧
    (placeFrame f s).off = s.off ∧ (placeFrame f s).dir = s.dir ∧ (placeFrame f s).cnt = s.cnt ∧
    (placeFrame f s).len = s.len ∧ (placeFrame f s).fb = s.fb ∧ (placeFrame f s).lock = s.lock ∧
    (placeFrame f s).act = .idle ∧ (placeFrame f s).tickPend = s.tickPend ∧ (placeFrame f s).e = s.e ∧
    (placeFrame f s).errFlags = s.errFlags ∧ (placeFrame f s).trace = s.trace ∧
    (placeFrame f s).responses = s.responses ∧ (placeFrame f s).rx = [] ∧ (placeFrame f s).frame = some f ∧
    (placeFrame f s).sched = .run .command :: s.sched ∧ (placeFrame f s).arb = s.arb :=
  ⟨rfl, rfl, rfl, rfl, rfl, rfl, rfl, rfl, rfl, rfl, rfl, rfl, rfl, rfl, rfl, rfl, rfl, rfl, rfl, rfl, rfl, rfl⟩

/-- What `initBroadcasts` writes, field by field (R198: only the trace). -/
@[simp] theorem initBroadcasts_fields (s : State) (ii : Byte) :
    (initBroadcasts ii s).cfg = s.cfg ∧ (initBroadcasts ii s).inited = s.inited ∧
    (initBroadcasts ii s).n = s.n ∧ (initBroadcasts ii s).pin = s.pin ∧ (initBroadcasts ii s).mode = s.mode ∧
    (initBroadcasts ii s).delay = s.delay ∧ (initBroadcasts ii s).off = s.off ∧
    (initBroadcasts ii s).dir = s.dir ∧ (initBroadcasts ii s).cnt = s.cnt ∧ (initBroadcasts ii s).len = s.len ∧
    (initBroadcasts ii s).fb = s.fb ∧ (initBroadcasts ii s).lock = s.lock ∧ (initBroadcasts ii s).act = s.act ∧
    (initBroadcasts ii s).tickPend = s.tickPend ∧ (initBroadcasts ii s).e = s.e ∧
    (initBroadcasts ii s).errFlags = s.errFlags ∧
    (initBroadcasts ii s).trace = s.trace
      ++ broadcastWords s.n.toNat s.cfg.regScanLimit Config.valScanLimit
      ++ broadcastWords s.n.toNat s.cfg.regDecode s.cfg.valDecodeOff
      ++ broadcastWords s.n.toNat s.cfg.regDispTest s.cfg.valTestOff
      ++ broadcastWords s.n.toNat s.cfg.regIntensity ii
      ++ broadcastWords s.n.toNat s.cfg.regShutdown s.cfg.valPwrOn ∧
    (initBroadcasts ii s).responses = s.responses ∧ (initBroadcasts ii s).rx = s.rx ∧
    (initBroadcasts ii s).frame = s.frame ∧ (initBroadcasts ii s).sched = s.sched ∧
    (initBroadcasts ii s).arb = s.arb := by
  simp [initBroadcasts]

/-- What `tick` writes, field by field (R176: only TICKPEND). -/
@[simp] theorem tick_fields (s : State) :
    (tick s).cfg = s.cfg ∧ (tick s).inited = s.inited ∧ (tick s).n = s.n ∧ (tick s).pin = s.pin ∧
    (tick s).mode = s.mode ∧ (tick s).delay = s.delay ∧ (tick s).off = s.off ∧ (tick s).dir = s.dir ∧
    (tick s).cnt = s.cnt ∧ (tick s).len = s.len ∧ (tick s).fb = s.fb ∧ (tick s).lock = s.lock ∧
    (tick s).act = s.act ∧ (tick s).tickPend = (s.inited || s.tickPend) ∧ (tick s).e = s.e ∧
    (tick s).errFlags = s.errFlags ∧ (tick s).trace = s.trace ∧ (tick s).responses = s.responses ∧
    (tick s).rx = s.rx ∧ (tick s).frame = s.frame ∧ (tick s).sched = s.sched ∧ (tick s).arb = s.arb := by
  unfold tick
  cases h : s.inited <;> simp [h]

/-- What `advance` writes, field by field (R162: only OFF and DIR). -/
@[simp] theorem advance_fields (s : State) :
    (advance s).cfg = s.cfg ∧ (advance s).inited = s.inited ∧ (advance s).n = s.n ∧ (advance s).pin = s.pin ∧
    (advance s).mode = s.mode ∧ (advance s).delay = s.delay ∧ (advance s).cnt = s.cnt ∧
    (advance s).len = s.len ∧ (advance s).fb = s.fb ∧ (advance s).lock = s.lock ∧ (advance s).act = s.act ∧
    (advance s).tickPend = s.tickPend ∧ (advance s).e = s.e ∧ (advance s).errFlags = s.errFlags ∧
    (advance s).trace = s.trace ∧ (advance s).responses = s.responses ∧ (advance s).rx = s.rx ∧
    (advance s).frame = s.frame ∧ (advance s).sched = s.sched ∧ (advance s).arb = s.arb := by
  unfold advance
  split
  · split <;> simp
  · simp

/-- What `scrollStep` writes, field by field (R162: only OFF, DIR and CNT). -/
@[simp] theorem scrollStep_fields (s : State) :
    (scrollStep s).cfg = s.cfg ∧ (scrollStep s).inited = s.inited ∧ (scrollStep s).n = s.n ∧
    (scrollStep s).pin = s.pin ∧ (scrollStep s).mode = s.mode ∧ (scrollStep s).delay = s.delay ∧
    (scrollStep s).len = s.len ∧ (scrollStep s).fb = s.fb ∧ (scrollStep s).lock = s.lock ∧
    (scrollStep s).act = s.act ∧ (scrollStep s).tickPend = s.tickPend ∧ (scrollStep s).e = s.e ∧
    (scrollStep s).errFlags = s.errFlags ∧ (scrollStep s).trace = s.trace ∧
    (scrollStep s).responses = s.responses ∧ (scrollStep s).rx = s.rx ∧ (scrollStep s).frame = s.frame ∧
    (scrollStep s).sched = s.sched ∧ (scrollStep s).arb = s.arb := by
  unfold scrollStep
  split <;> simp

/-- What `passOffset` writes, field by field (R178: only OFF, DIR, CNT and E). -/
@[simp] theorem passOffset_fields (s : State) :
    (passOffset s).cfg = s.cfg ∧ (passOffset s).inited = s.inited ∧ (passOffset s).n = s.n ∧
    (passOffset s).pin = s.pin ∧ (passOffset s).mode = s.mode ∧ (passOffset s).delay = s.delay ∧
    (passOffset s).len = s.len ∧ (passOffset s).fb = s.fb ∧ (passOffset s).lock = s.lock ∧
    (passOffset s).act = s.act ∧ (passOffset s).tickPend = s.tickPend ∧ (passOffset s).errFlags = s.errFlags ∧
    (passOffset s).trace = s.trace ∧ (passOffset s).responses = s.responses ∧ (passOffset s).rx = s.rx ∧
    (passOffset s).frame = s.frame ∧ (passOffset s).sched = s.sched ∧ (passOffset s).arb = s.arb := by
  unfold passOffset
  cases scrolls s <;> simp

/-- What `passStart` writes, field by field (R177, R178, R230). -/
@[simp] theorem passStart_fields (s : State) :
    (passStart s).cfg = s.cfg ∧ (passStart s).inited = s.inited ∧ (passStart s).n = s.n ∧
    (passStart s).pin = s.pin ∧ (passStart s).mode = s.mode ∧ (passStart s).delay = s.delay ∧
    (passStart s).len = s.len ∧ (passStart s).fb = s.fb ∧ (passStart s).lock = s.lock ∧
    (passStart s).act = .scan 1 0 ∧ (passStart s).tickPend = false ∧ (passStart s).errFlags = s.errFlags ∧
    (passStart s).trace = s.trace ∧ (passStart s).responses = s.responses ∧ (passStart s).rx = s.rx ∧
    (passStart s).frame = s.frame ∧ (passStart s).sched = s.sched ∧ (passStart s).arb = s.arb := by
  unfold passStart
  simp

/-- What `receive` writes, field by field (R90, R91: only the port). -/
@[simp] theorem receive_fields (s : State) (b : Byte) (last : Bool) :
    (receive b last s).cfg = s.cfg ∧ (receive b last s).inited = s.inited ∧ (receive b last s).n = s.n ∧
    (receive b last s).pin = s.pin ∧ (receive b last s).mode = s.mode ∧ (receive b last s).delay = s.delay ∧
    (receive b last s).off = s.off ∧ (receive b last s).dir = s.dir ∧ (receive b last s).cnt = s.cnt ∧
    (receive b last s).len = s.len ∧ (receive b last s).fb = s.fb ∧ (receive b last s).lock = s.lock ∧
    (receive b last s).act = s.act ∧ (receive b last s).tickPend = s.tickPend ∧ (receive b last s).e = s.e ∧
    (receive b last s).errFlags = s.errFlags ∧ (receive b last s).trace = s.trace ∧
    (receive b last s).responses = s.responses ∧ (receive b last s).rx = (if last then [] else s.rx ++ [b]) ∧
    (receive b last s).frame = (if last then some (s.rx ++ [b]) else s.frame) ∧
    (receive b last s).sched = s.sched ∧ (receive b last s).arb = s.arb := by
  unfold receive
  cases last <;> simp

end Sys2Proof.Machine
end

