-- ==== Sys2Proof/Laws/Ops.lean ====
section
/-! SUPPORT. One lemma per shared operation: everything it can do. -/

namespace Sys2Proof.Machine

open Sys2Proof

@[simp] theorem andThen_next (s : State) (f : State → Host.Outcome State Fault Refusal) :
    andThen (.next s) f = f s := rfl

/-- A sequence answers a next state exactly where both parts do. -/
theorem andThen_eq_next {o : Host.Outcome State Fault Refusal} {f : State → Host.Outcome State Fault Refusal}
    {t : State} : andThen o f = .next t ↔ ∃ u, o = .next u ∧ f u = .next t := by
  cases o <;> simp [andThen]

/-- A commit that fits the buffer, whatever came before (R144). -/
theorem commit_fits (content : List Byte) (s : State) (h : content.length ≤ s.cfg.lmax) :
    commit content s = .next { s with
      fb := Memory.ofContent content
      len := content.length
      off := resetOff s.mode content.length
      dir := resetDir s.mode
      cnt := s.delay
      lock := false } := by
  simp [commit, replaceBuffer, h, andThen, scrollReset, unlockBuffer, lockBuffer]

/-- A commit that does not fit stops the model; no caller makes one (R140, log 11). -/
theorem commit_too_long (content : List Byte) (s : State) (h : ¬ content.length ≤ s.cfg.lmax) :
    commit content s = .fault .beyondCapacity := by
  simp [commit, replaceBuffer, h, andThen]

/-- Everything a commit can do (R144). -/
theorem commit_next {content : List Byte} {s t : State} (h : commit content s = .next t) :
    content.length ≤ s.cfg.lmax ∧ t = { s with
      fb := Memory.ofContent content
      len := content.length
      off := resetOff s.mode content.length
      dir := resetDir s.mode
      cnt := s.delay
      lock := false } := by
  by_cases hl : content.length ≤ s.cfg.lmax
  · rw [commit_fits _ _ hl] at h
    cases h
    exact ⟨hl, rfl⟩
  · rw [commit_too_long _ _ hl] at h
    cases h

@[simp] theorem length_zeros (n : Nat) : (zeros n).length = n := by simp [zeros]

@[simp] theorem length_broadcastWords (n : Nat) (reg d : Byte) : (broadcastWords n reg d).length = n := by
  simp [broadcastWords]

/-- The words of a broadcast: one to each module 1..n, all with the same register and data (R195). -/
theorem mem_broadcastWords {n : Nat} {reg d : Byte} {w : SendWord} :
    w ∈ broadcastWords n reg d ↔ 1 ≤ w.m ∧ w.m ≤ n ∧ w.reg = reg ∧ w.d = d := by
  obtain ⟨m, r, x⟩ := w
  simp only [broadcastWords, List.mem_map, List.mem_range, SendWord.mk.injEq]
  constructor
  · rintro ⟨j, hj, rfl, rfl, rfl⟩
    exact ⟨by omega, by omega, rfl, rfl⟩
  · rintro ⟨h1, h2, rfl, rfl⟩
    exact ⟨m - 1, by omega, by omega, rfl, rfl⟩

/-- The glyphs of records made of glyphs. -/
theorem glyphsOf_map (glyphs : List Glyph) : glyphsOf (glyphs.map Eight.toList) = some glyphs := by
  induction glyphs with
  | nil => rfl
  | cons g rest ih => simp [glyphsOf, glyphOf, Eight.toList, ih]

theorem glyphOf_eq_some {r : List Byte} {g : Glyph} : glyphOf r = some g ↔ r = g.toList := by
  obtain ⟨a, b, c, d, e, f, x, y⟩ := g
  unfold glyphOf
  split
  · simp [Eight.toList]
  · rename_i h
    simp only [reduceCtorEq, false_iff, Eight.toList]
    intro hr
    exact h _ _ _ _ _ _ _ _ hr

theorem glyphOf_isSome (r : List Byte) : (glyphOf r).isSome = decide (r.length = 8) := by
  unfold glyphOf
  split
  · simp
  · rename_i h
    simp only [Option.isSome_none, Bool.false_eq, decide_eq_false_iff_not]
    intro h8
    match r, h8 with
    | [a, b, c, d, e, f, x, y], _ => exact h a b c d e f x y rfl

/-- A record list gives glyphs exactly where every record has 8 bytes (R220). -/
theorem glyphsOf_isSome (records : List (List Byte)) :
    (glyphsOf records).isSome = records.all fun r => decide (r.length = 8) := by
  induction records with
  | nil => rfl
  | cons r rest ih =>
    rw [List.all_cons, ← ih, ← glyphOf_isSome]
    cases h1 : glyphOf r <;> cases h2 : glyphsOf rest <;> simp [glyphsOf, h1, h2]

/-- The records whose glyphs are `glyphs`. -/
theorem glyphsOf_eq_some {records : List (List Byte)} {glyphs : List Glyph} :
    glyphsOf records = some glyphs ↔ records = glyphs.map Eight.toList := by
  constructor
  · intro h
    induction records generalizing glyphs with
    | nil => simp only [glyphsOf, Option.some.injEq] at h; subst h; rfl
    | cons r rest ih =>
      cases h1 : glyphOf r with
      | none => simp [glyphsOf, h1] at h
      | some g =>
        cases h2 : glyphsOf rest with
        | none => simp [glyphsOf, h1, h2] at h
        | some gs =>
          simp only [glyphsOf, h1, h2, Option.some.injEq] at h
          subst h
          simp [ih h2, glyphOf_eq_some.mp h1]
  · rintro rfl
    exact glyphsOf_map glyphs

@[simp] theorem length_toList {α : Type} (g : Eight α) : g.toList.length = 8 := rfl

@[simp] theorem length_composeBlock (rs : Bool) (rot : Rot) (inv : Bool) (g : Glyph) :
    (composeBlock rs rot inv g).length = 8 := by
  simp [composeBlock]

/-- "Output length is always exactly 8 per glyph" (R128). -/
@[simp] theorem length_compose (rs : Bool) (rot : Rot) (inv : Bool) (glyphs : List Glyph) :
    (compose rs rot inv glyphs).length = 8 * glyphs.length := by
  induction glyphs with
  | nil => rfl
  | cons g rest ih =>
    simp only [compose, List.flatMap_cons, List.length_append, length_composeBlock, List.length_cons] at ih ⊢
    omega

end Sys2Proof.Machine
end

