-- ==== Sys2Proof/Laws/PerInstr.lean ====
section
/-! SUPPORT. Laws said of every command, one lemma per constructor. -/

namespace Sys2Proof.Laws

open Sys2Proof

/-- The mask and the match of a command's row in spec/opcode_table.json (R94). -/
def opcodeRow : Instr → Byte × Byte
  | .init _ _ _ _ _ => (0xFF, 0x10)
  | .setscroll _ _ => (0xFF, 0x20)
  | .clear => (0xFF, 0x30)
  | .write _ _ _ => (0xF8, 0x40)
  | .setint _ => (0xFF, 0x50)
  | .setpwr _ => (0xFE, 0x60)

/-- The frame of the command begins with an opcode byte that matches the command's own row (R93, R94). -/
def OpcodeByte.Statement (i : Instr) : Prop :=
  ∃ b0 ops, encode i = b0 :: ops ∧ b0 &&& (opcodeRow i).1 = (opcodeRow i).2

theorem OpcodeByte.init (nn pp : Option Byte) (ii : Byte) (mm : Mode) (dd : Byte) :
    OpcodeByte.Statement (.init nn pp ii mm dd) := by
  cases nn <;> cases pp <;> exact ⟨0x10, _, rfl, (by decide : (0x10 : Byte) &&& 0xFF = 0x10)⟩

theorem OpcodeByte.setscroll (mm : Mode) (dd : Byte) : OpcodeByte.Statement (.setscroll mm dd) :=
  ⟨0x20, _, rfl, (by decide : (0x20 : Byte) &&& 0xFF = 0x20)⟩

theorem OpcodeByte.clear : OpcodeByte.Statement .clear :=
  ⟨0x30, _, rfl, (by decide : (0x30 : Byte) &&& 0xFF = 0x30)⟩

theorem OpcodeByte.write (rot : Rot) (inv : Bool) (records : List (List Byte)) :
    OpcodeByte.Statement (.write rot inv records) :=
  ⟨writeOpcode rot inv, _, rfl, (writeOpcode_facts rot inv).2.2.2.1⟩

theorem OpcodeByte.setint (vv : Byte) : OpcodeByte.Statement (.setint vv) :=
  ⟨0x50, _, rfl, (by decide : (0x50 : Byte) &&& 0xFF = 0x50)⟩

theorem OpcodeByte.setpwr (p : Bool) : OpcodeByte.Statement (.setpwr p) := by
  cases p
  · exact ⟨0x60, _, rfl, (by decide : (0x60 : Byte) &&& 0xFE = 0x60)⟩
  · exact ⟨0x61, _, rfl, (by decide : (0x61 : Byte) &&& 0xFE = 0x60)⟩

end Sys2Proof.Laws
end

