-- ==== Sys2Proof/Laws/Phased.lean ====
section
/-! SUPPORT. A command in progress: what finishing its phases gives, and how that fits the command's meaning. -/

namespace Sys2Proof.Machine

open Sys2Proof

/-- No phase reads ACT, and the response sets it: where a command ends does not depend on ACT. -/
theorem finish_act (todo : List Phase) (s : State) (a : Act) : finish todo { s with act := a } = finish todo s := by
  induction todo generalizing s with
  | nil => rfl
  | cons p rest ih =>
    cases p with
    | configure n pin mode delay => exact ih (configure n pin mode delay s)
    | lock => exact ih (lockBuffer s)
    | replace content =>
      by_cases h : content.length ≤ s.cfg.lmax
      · simp only [finish, phaseStep, replaceBuffer, h, if_true, andThen_next]
        exact ih { s with fb := Memory.ofContent content, len := content.length }
      · simp only [finish, phaseStep, replaceBuffer, h, if_false, andThen]
    | scrollReset => exact ih (scrollReset s)
    | unlock => exact ih (unlockBuffer s)
    | start => exact ih (startRun s)
    | setScroll mode delay => exact ih (setScroll mode delay s)
    | send w => exact ih (emit w s)

/-- The step of a command in progress does what finishing it does first. -/
theorem finish_cons (p : Phase) (rest : List Phase) (s : State) :
    finish (p :: rest) s = andThen (phaseStep p s) (finish rest) := rfl

/-- Sending words one a step is sending them all at once (R195). -/
theorem finish_sends (ws : List SendWord) (rest : List Phase) (s : State) :
    finish (ws.map .send ++ rest) s = finish rest { s with trace := s.trace ++ ws } := by
  induction ws generalizing s with
  | nil => simp
  | cons w ws ih =>
    simp only [List.map_cons, List.cons_append, finish_cons, phaseStep, andThen_next, ih]
    simp [emit]

/-- The phases of a broadcast are the broadcast (R195). -/
theorem finish_broadcast (n : Nat) (reg d : Byte) (rest : List Phase) (s : State) :
    finish (broadcastPhases n reg d ++ rest) s
      = finish rest { s with trace := s.trace ++ broadcastWords n reg d } :=
  finish_sends _ rest s

/-- The phases of a commit are the commit (R142). -/
theorem finish_commit (content : List Byte) (rest : List Phase) (s : State) :
    finish (commitPhases content ++ rest) s = andThen (commit content s) (finish rest) := by
  by_cases h : content.length ≤ s.cfg.lmax
  · simp [commitPhases, finish, phaseStep, replaceBuffer, h, commit]
  · simp [commitPhases, finish, phaseStep, replaceBuffer, h, commit, andThen]

/-- The meaning of a command whose checks pass is its phases and the response (R74, R143). -/
theorem exec_of_plan {i : Instr} {s : State} {k : CmdKind} {todo : List Phase} (h : plan i s = .ok (k, todo)) :
    exec i s = finish todo s := by
  cases i <;> simp only [plan] at h <;> split at h <;> cases h <;> rename_i hc
  · rename_i ii mm dd _ n p
    simp only [exec, execInit, hc, initPhases, finish_cons, phaseStep, andThen_next, finish_commit]
    by_cases hl : (zeros (8 * n.toNat)).length ≤ (configure n p mm dd s).cfg.lmax
    · rw [commit_fits _ _ hl]
      have := finish_broadcast n.toNat s.cfg.regShutdown s.cfg.valPwrOn []
      rw [List.append_nil] at this
      simp only [andThen_next, phaseStep, List.append_assoc, finish_broadcast, this, finish]
      simp [respondOk, initBroadcasts, broadcast, startRun, configure]
    · rw [commit_too_long _ _ hl]
      rfl
  · simp [exec, execSetscroll, hc, finish, phaseStep]
  · have := finish_commit (zeros s.c) [] s
    rw [List.append_nil] at this
    simp only [exec, execClear, hc, this]
    rfl
  · rename_i rot inv _ _ glyphs
    have := finish_commit (compose s.cfg.rotswap rot inv glyphs) [] s
    rw [List.append_nil] at this
    simp only [exec, execWrite, hc, this]
    rfl
  · have := finish_broadcast s.n.toNat s.cfg.regIntensity ‹Byte› [] s
    rw [List.append_nil] at this
    simp only [exec, execSetint, hc, this]
    rfl
  · have := finish_broadcast s.n.toNat s.cfg.regShutdown (powerByte s.cfg ‹Bool›) [] s
    rw [List.append_nil] at this
    simp only [exec, execSetpwr, hc, this]
    rfl

/-- The meaning of a command that fails a check is the error (R217, R223). -/
theorem exec_of_plan_error {i : Instr} {s : State} {e : Err} (h : plan i s = .error e) :
    exec i s = .next (raise e s) := by
  cases i <;> simp only [plan] at h <;> split at h <;> cases h <;> rename_i hc <;>
    simp [exec, execInit, execSetscroll, execClear, execWrite, execSetint, execSetpwr, hc]

end Sys2Proof.Machine
end

