-- ==== Sys2Proof/Laws/Scroll.lean ====
section
/-! SUPPORT. The scroll engine: one equation per register a step writes. -/

namespace Sys2Proof.Machine

open Sys2Proof

/-- The countdown reaches 0 in a step exactly from 1, or from 0 where the decrement saturates (R162, R163). -/
theorem decremented_eq_zero (b : Byte) : decremented b = 0 ↔ b.toNat ≤ 1 := by
  unfold decremented
  split <;> constructor <;> intro h
  · have : b = 1 := by bv_omega
    subst this
    decide
  · bv_omega
  · omega
  · bv_omega

/-- The two wrap boundaries (R162). -/
theorem beyondBound_iff (s : State) :
    beyondBound s = true ↔ (s.len : Int) < s.off + s.dir.toInt ∨ s.off + s.dir.toInt < -(s.c : Int) := by
  simp only [beyondBound, Bool.or_eq_true, decide_eq_true_eq]
  rfl

/-- Scrolling is active and the content is long (R159). -/
theorem scrolls_iff (s : State) : scrolls s = true ↔ s.mode ≠ .off ∧ s.c < s.len := by
  simp only [scrolls, Bool.and_eq_true, decide_eq_true_eq]

theorem scrolls_eq_false_iff (s : State) : scrolls s = false ↔ s.mode = .off ∨ s.len ≤ s.c := by
  rw [← Bool.not_eq_true, scrolls_iff]
  constructor
  · intro h
    by_cases hm : s.mode = .off
    · exact .inl hm
    · exact .inr (Nat.le_of_not_lt fun hl => h ⟨hm, hl⟩)
  · rintro (h | h) ⟨h1, h2⟩
    · exact h1 h
    · omega

/-- The effective offset is OFF exactly where the step runs (R160, R161). -/
theorem effOffset_eq (s : State) : effOffset s = if scrolls s then s.off else 0 := by
  cases h : scrolls s
  · simp [effOffset, (scrolls_eq_false_iff s).mp h]
  · have h' := (scrolls_iff s).mp h
    have : ¬ (s.mode = .off ∨ s.len ≤ s.c) := by
      rintro (h | h)
      · exact h'.1 h
      · omega
    simp [effOffset, this]

theorem beyondBound_congr {s t : State} (h1 : t.len = s.len) (h2 : t.off = s.off) (h3 : t.dir = s.dir)
    (h4 : t.n = s.n) : beyondBound t = beyondBound s := by
  rw [Bool.eq_iff_iff, beyondBound_iff, beyondBound_iff, State.c, State.c, h1, h2, h3, h4]

/-- OFF after an advance (R162). -/
theorem advance_off (s : State) :
    (advance s).off = if beyondBound s then
      (match s.mode with | .off => s.off | .left => (s.len : Int) | .right => -(s.c : Int) | .bounce => s.off)
      else s.off + s.dir.toInt := by
  unfold advance
  split
  · split <;> simp_all
  · rfl

/-- DIR after an advance: only a bounce inverts it (R162). -/
theorem advance_dir (s : State) :
    (advance s).dir = if beyondBound s = true ∧ s.mode = .bounce then s.dir.neg else s.dir := by
  unfold advance
  split
  · split <;> simp_all
  · simp_all

@[simp] theorem advance_cnt (s : State) : (advance s).cnt = s.cnt := (advance_fields s).2.2.2.2.2.2.1

/-- CNT after a step (R162, R163). -/
theorem scrollStep_cnt (s : State) :
    (scrollStep s).cnt = if s.cnt.toNat ≤ 1 then s.delay else s.cnt - 1 := by
  simp only [scrollStep, decremented_eq_zero]
  split
  · simp
  · simp only [decremented]
    rw [if_pos (by omega)]

/-- OFF after a step (R162). -/
theorem scrollStep_off (s : State) :
    (scrollStep s).off = if s.cnt.toNat ≤ 1 then
      (if beyondBound s then
        (match s.mode with | .off => s.off | .left => (s.len : Int) | .right => -(s.c : Int) | .bounce => s.off)
        else s.off + s.dir.toInt)
      else s.off := by
  simp only [scrollStep, decremented_eq_zero]
  split
  · rw [advance_off, beyondBound_congr (s := s) rfl rfl rfl rfl]
    rfl
  · rfl

/-- DIR after a step (R162). -/
theorem scrollStep_dir (s : State) :
    (scrollStep s).dir =
      if s.cnt.toNat ≤ 1 ∧ beyondBound s = true ∧ s.mode = .bounce then s.dir.neg else s.dir := by
  simp only [scrollStep, decremented_eq_zero]
  by_cases h : s.cnt.toNat ≤ 1
  · have hb : beyondBound { s with cnt := s.delay } = beyondBound s := beyondBound_congr rfl rfl rfl rfl
    rw [if_pos h, advance_dir, hb]
    simp [h]
  · rw [if_neg h]
    simp [h]

/-- A state is its fields: a scroll step is known from the three registers it writes. -/
theorem scrollStep_eq (s : State) :
    scrollStep s =
      { s with cnt := (scrollStep s).cnt, off := (scrollStep s).off, dir := (scrollStep s).dir } := by
  unfold scrollStep
  split
  · unfold advance
    split
    · split <;> rfl
    · rfl
  · rfl

/-- A step reads only the scroll state, LEN and N (R162). -/
theorem scrollStep_congr {s t : State} (hm : t.mode = s.mode) (hd : t.delay = s.delay) (hl : t.len = s.len)
    (hn : t.n = s.n) (ho : t.off = s.off) (hr : t.dir = s.dir) (hc : t.cnt = s.cnt) :
    (scrollStep t).off = (scrollStep s).off ∧ (scrollStep t).dir = (scrollStep s).dir ∧
      (scrollStep t).cnt = (scrollStep s).cnt := by
  simp [scrollStep_off, scrollStep_dir, scrollStep_cnt, beyondBound_congr hl ho hr hn, State.c, hm, hd, hl, hn, ho,
    hr, hc]

/-- No step reads or writes ACT (R162). -/
theorem scrollStep_act (s : State) (a : Act) : scrollStep { s with act := a } = { scrollStep s with act := a } := by
  have h := scrollStep_congr (s := s) (t := { s with act := a }) rfl rfl rfl rfl rfl rfl rfl
  rw [scrollStep_eq { s with act := a }, h.1, h.2.1, h.2.2, scrollStep_eq s]

/-- The first action of a pass does not read ACT (R178): the start of a pass is `passOffset` and the activity. -/
theorem passOffset_act (s : State) (a : Act) : passOffset { s with act := a } = { passOffset s with act := a } := by
  unfold passOffset
  have h : scrolls { s with act := a } = scrolls s := rfl
  rw [h]
  cases scrolls s
  · rfl
  · simp only [if_true, scrollStep_act]
    rfl

end Sys2Proof.Machine
end

