-- ==== Sys2Proof/Laws/Scan.lean ====
section
/-! SUPPORT. The pass: its positions by number, what its events are, and what it writes. -/

namespace Sys2Proof.Machine

open Sys2Proof

/-- The events depend on FB, LEN, E and the row registers only (R180). -/
theorem rowEvents_congr {s t : State} (h1 : t.fb = s.fb) (h2 : t.len = s.len) (h3 : t.e = s.e) (h4 : t.cfg = s.cfg)
    (ps : List (Nat × Fin 8)) : rowEvents t ps = rowEvents s ps := by
  induction ps with
  | nil => rfl
  | cons p ps ih =>
    obtain ⟨m, r⟩ := p
    simp only [rowEvents, fbRead_congr h1 h2, h3, h4, ih]

/-- A pass has 8·N positions (R181). -/
theorem length_passPositions (n : Nat) : (passPositions n).length = 8 * n := by
  simp only [passPositions, List.length_flatMap, List.length_map, List.length_finRange, List.map_const', List.sum_replicate,
    List.length_range, smul_eq_mul]
  omega

/-- The k-th position, k from 0: module k / 8 + 1, row k mod 8 + 1 (R179). -/
theorem passPositions_get (n k : Nat) (h : k < 8 * n) :
    (passPositions n)[k]? = some (k / 8 + 1, ⟨k % 8, Nat.mod_lt k (by decide)⟩) := by
  induction n generalizing k with
  | zero => omega
  | succ n ih =>
    have hs : passPositions (n + 1) = passPositions n ++ (List.finRange 8).map fun r => (n + 1, r) := by
      simp [passPositions, List.range_succ]
    rw [hs]
    by_cases hk : k < 8 * n
    · rw [List.getElem?_append_left (by rw [length_passPositions]; omega), ih k hk]
    · rw [List.getElem?_append_right (by rw [length_passPositions]; omega), length_passPositions]
      obtain ⟨j, rfl⟩ : ∃ j, k = 8 * n + j := ⟨k - 8 * n, by omega⟩
      have hj : j < 8 := by omega
      simp only [show 8 * n + j - 8 * n = j by omega, List.getElem?_map]
      rw [List.getElem?_eq_getElem (by simpa using hj)]
      simp
      exact ⟨by omega, by omega⟩

/-- From the k-th position on: that position, then from the next one on. -/
theorem passPositions_drop (n k : Nat) (h : k < 8 * n) :
    (passPositions n).drop k
      = (k / 8 + 1, ⟨k % 8, Nat.mod_lt k (by decide)⟩) :: (passPositions n).drop (k + 1) := by
  have hk : k < (passPositions n).length := by rw [length_passPositions]; exact h
  have h1 := passPositions_get n k h
  rw [List.getElem?_eq_getElem hk, Option.some.injEq] at h1
  rw [List.drop_eq_getElem_cons hk, h1]

/-- ACT after the row step at the k-th position is the next position, or IDLE after the last (R180, R181). -/
theorem nextScan_at (n k : Nat) (hk : k < 8 * n) :
    nextScan n (k / 8 + 1) ⟨k % 8, Nat.mod_lt k (by decide)⟩ =
      if k + 1 < 8 * n then .scan ((k + 1) / 8 + 1) ⟨(k + 1) % 8, Nat.mod_lt _ (by decide)⟩ else .idle := by
  unfold nextScan
  split
  · rename_i h
    simp only at h
    rw [if_pos (by omega)]
    congr 1
    · omega
    · ext; simp only; omega
  · rename_i h
    simp only at h
    split
    · rw [if_pos (by omega)]
      congr 1
      · omega
      · ext; simp; omega
    · rw [if_neg (by omega)]

/-- The events of a pass, position by position (R180). -/
theorem rowEvents_get {s : State} {ps : List (Nat × Fin 8)} {ws : List SendWord} (h : rowEvents s ps = some ws) :
    ws.length = ps.length ∧
      ∀ (k : Nat) (p : Nat × Fin 8), ps[k]? = some p →
        ∃ d, fbRead s (scanIndex s.e p.1 p.2) = some d ∧
          ws[k]? = some { m := p.1, reg := s.cfg.regRow.get p.2, d := d } := by
  induction ps generalizing ws with
  | nil => simp only [rowEvents, Option.some.injEq] at h; subst h; simp
  | cons p ps ih =>
    obtain ⟨m, r⟩ := p
    simp only [rowEvents] at h
    split at h
    · rename_i d ws' h1 h2
      cases h
      obtain ⟨i1, i2⟩ := ih h2
      refine ⟨by simp [i1], ?_⟩
      intro k p hk
      cases k with
      | zero => simp only [List.getElem?_cons_zero, Option.some.injEq] at hk; subst hk; exact ⟨d, h1, rfl⟩
      | succ k => simpa using i2 k p (by simpa using hk)
    · cases h

/-- Every position has its event where FB holds exactly FB[1..LEN]: a pass never fails (R222). -/
theorem rowEvents_total (s : State) (h : s.fb.map Prod.fst = List.range' 1 s.len) (ps : List (Nat × Fin 8)) :
    ∃ ws, rowEvents s ps = some ws := by
  induction ps with
  | nil => exact ⟨_, rfl⟩
  | cons p ps ih =>
    obtain ⟨m, r⟩ := p
    obtain ⟨ws, hw⟩ := ih
    obtain ⟨d, hd⟩ := fbRead_total s h (scanIndex s.e m r)
    simp [rowEvents, hw, hd]

/-- Everything a whole pass can do (R182). -/
theorem wholePass_cases {s t : State} (h : wholePass s = .next t) :
    ∃ u ws, u = passOffset { s with tickPend := false } ∧ rowEvents u (passPositions u.n.toNat) = some ws ∧
      t = { u with trace := u.trace ++ ws, act := .idle } := by
  unfold wholePass at h
  simp only at h
  split at h
  · rename_i ws hw
    cases h
    exact ⟨_, _, rfl, hw, rfl⟩
  · cases h

/-- The first action of a pass writes OFF, DIR, CNT and E only (R178). -/
theorem passOffset_eq (s : State) :
    passOffset s = { s with
      off := (passOffset s).off, dir := (passOffset s).dir, cnt := (passOffset s).cnt, e := (passOffset s).e } := by
  unfold passOffset
  split
  · have h := scrollStep_eq s
    generalize scrollStep s = u at h ⊢
    cases u
    cases h
    rfl
  · rfl

end Sys2Proof.Machine
end

