-- ==== Sys2Proof/Laws/Settled.lean ====
section
/-! SUPPORT. What the invariant's parts read, so that a step that writes other registers keeps them. -/

namespace Sys2Proof.Machine

open Sys2Proof

/-- Settled reads ten registers and the parameters. -/
theorem settled_congr {s t : State} (h : Settled s) (hn : t.n = s.n) (hcfg : t.cfg = s.cfg)
    (hinited : t.inited = s.inited) (hoff : t.off = s.off) (hlen : t.len = s.len) (hcnt : t.cnt = s.cnt)
    (hdelay : t.delay = s.delay) (hmode : t.mode = s.mode) (hdir : t.dir = s.dir)
    (htick : t.inited = false → t.tickPend = false) : Settled t := by
  constructor
  · rw [hn, hcfg]; exact h.nLeNmax
  · rw [hn, hinited]; exact h.nPositive
  · rw [State.c, hn, hoff, hlen]; exact h.offBounds
  · rw [hcnt, hdelay]; exact h.cntBounds
  · rw [hoff, hmode, hdir]; exact h.dirAgrees
  · rw [hlen]; exact h.lenMultiple
  · intro hi
    refine ⟨htick hi, ?_⟩
    rw [hinited] at hi
    rw [hlen, hn, hmode]
    exact (h.uninit hi).2

/-- The effective offset reads four registers (R160). -/
theorem effOffset_congr {s t : State} (hmode : t.mode = s.mode) (hlen : t.len = s.len) (hn : t.n = s.n)
    (hoff : t.off = s.off) : effOffset t = effOffset s := by
  unfold effOffset State.c
  rw [hmode, hlen, hn, hoff]

/-- The content of every commit of an instance the spec describes fits (R7). -/
theorem valid_lmax {p : Config} (h : p.valid = true) {n : Nat} (hn : n ≤ p.nmax) : 8 * n ≤ p.lmax := by
  simp only [Config.valid, Bool.and_eq_true, decide_eq_true_eq] at h
  unfold Config.lmax
  omega

/-- The no-op's number is none of the thirteen register numbers (R196). -/
theorem valid_not_noop {p : Config} (h : p.valid = true) {reg : Byte} (hr : reg ∈ p.registers) : reg ≠ 0 := by
  simp only [Config.valid, Bool.and_eq_true, decide_eq_true_eq] at h
  rintro rfl
  exact h.2 hr

/-- A row register is one of the thirteen (R196). -/
theorem row_mem_registers (p : Config) (r : Fin 8) : p.regRow.get r ∈ p.registers := by
  fin_cases r <;> simp [Config.registers, Eight.get, Eight.toList]

theorem legal_iff (p : Config) (w : SendWord) :
    w.legal p = true ↔ 1 ≤ w.m ∧ w.m ≤ p.nmax ∧ w.reg ∈ p.registers := by
  simp [SendWord.legal, and_assoc]

/-- Legal sends are legal phases while LOCK is 0. -/
theorem todoLegal_sends (p : Config) (k : CmdKind) (rest : List Phase) (ws : List SendWord)
    (h : ∀ w ∈ ws, w.legal p = true) :
    todoLegal p k false (ws.map .send ++ rest) = todoLegal p k false rest := by
  induction ws with
  | nil => rfl
  | cons w ws ih => simp [todoLegal, h w (by simp), ih fun w hw => h w (by simp [hw])]

/-- A broadcast to at most NMAX modules is legal while LOCK is 0 (R195). -/
theorem todoLegal_broadcast (p : Config) (k : CmdKind) (rest : List Phase) (n : Nat) (reg d : Byte) (h : n ≤ p.nmax)
    (hr : reg ∈ p.registers) :
    todoLegal p k false (broadcastPhases n reg d ++ rest) = todoLegal p k false rest :=
  todoLegal_sends _ _ _ _ fun w hw => by
    rw [mem_broadcastWords] at hw
    rw [legal_iff, hw.2.2.1]
    exact ⟨hw.1, hw.2.1.trans h, hr⟩

/-- The schedule, the port's partial frame, the choice counter and TICKPEND do not matter to where a command ends, but
that a start clears TICKPEND (R198). -/
theorem finish_world (todo : List Phase) (s t : State) (a : Act) (q : List Move) (b : Nat) (r : List Byte) (tp : Bool)
    (h : finish todo s = .next t) :
    ∃ tp', finish todo { s with act := a, sched := q, arb := b, rx := r, tickPend := tp }
        = .next { t with sched := q, arb := b, rx := r, tickPend := tp' } ∧
      (tp' = tp ∧ t.tickPend = s.tickPend ∨ tp' = false ∧ t.tickPend = false) := by
  induction todo generalizing s tp with
  | nil =>
    simp only [finish] at h
    cases h
    exact ⟨tp, rfl, .inl ⟨rfl, rfl⟩⟩
  | cons p rest ih =>
    cases p with
    | configure n pin mode delay => exact ih (configure n pin mode delay s) tp h
    | lock => exact ih (lockBuffer s) tp h
    | replace content =>
      by_cases hl : content.length ≤ s.cfg.lmax
      · simp only [finish, phaseStep, replaceBuffer, hl, if_true, andThen_next] at h ⊢
        exact ih { s with fb := Memory.ofContent content, len := content.length } tp h
      · simp [finish, phaseStep, replaceBuffer, hl, andThen] at h
    | scrollReset => exact ih (scrollReset s) tp h
    | unlock => exact ih (unlockBuffer s) tp h
    | start =>
      obtain ⟨tp', h1, h2⟩ := ih (startRun s) false h
      refine ⟨tp', h1, .inr ?_⟩
      rcases h2 with h2 | h2
      · exact ⟨h2.1, by simpa using h2.2⟩
      · exact h2
    | setScroll mode delay => exact ih (setScroll mode delay s) tp h
    | send w => exact ih (emit w s) tp h

/-- Finishing a command never clears INITED and never changes a parameter. -/
theorem finish_keeps (todo : List Phase) (s t : State) (h : finish todo s = .next t) :
    (s.inited = true → t.inited = true) ∧ t.cfg = s.cfg := by
  induction todo generalizing s with
  | nil => simp only [finish] at h; cases h; simp
  | cons p rest ih =>
    rw [finish_cons, andThen_eq_next] at h
    obtain ⟨u, h1, h2⟩ := h
    have hu := ih u h2
    have hp : u.cfg = s.cfg ∧ (s.inited = true → u.inited = true) := by
      cases p <;> simp only [phaseStep, replaceBuffer] at h1 <;> (try split at h1) <;> cases h1 <;> simp
    exact ⟨fun hi => hu.1 (hp.2 hi), hu.2.trans hp.1⟩

end Sys2Proof.Machine
end

