-- ==== Sys2Proof/Laws/Step.lean ====
section
/-! SUPPORT. Everything a step can do, said once: a proof about a step takes these cases and unfolds neither the
schedule nor the arbitration. -/

namespace Sys2Proof.Machine

open Sys2Proof

/-- What a step of the block itself can do (R46). -/
inductive OwnEffect (s t : State) : Prop where
  /-- nothing can start, the block waits -/
  | wait (act : s.act = .idle) (frame : s.frame = none) (noPass : passReady s = false) (eq : t = s)
  /-- a pass starts -/
  | pass (ready : passReady s = true) (eq : t = passStart s)
  /-- a frame is executed whole -/
  | whole (f : List Byte) (act : s.act = .idle) (frame : s.frame = some f) (eq : runFrame f s = .next t)
  /-- a frame's execution starts phase by phase -/
  | phased (f : List Byte) (act : s.act = .idle) (frame : s.frame = some f) (eq : t = beginFrame f s)
  /-- a command goes on -/
  | command (k : CmdKind) (todo : List Phase) (act : s.act = .cmd k todo) (eq : cmdStep k todo s = .next t)
  /-- a pass goes on -/
  | row (m : Nat) (r : Fin 8) (act : s.act = .scan m r) (eq : rowStep m r s = .next t)

/-- What a step of the machine can do. -/
inductive StepEffect (s t : State) : Prop where
  /-- a tick (R176) -/
  | tick (rest : List Move) (sched : s.sched = .tick :: rest) (eq : t = tick { s with sched := rest })
  /-- a byte transferred (R91) -/
  | byte (b : Byte) (last : Bool) (rest : List Move) (sched : s.sched = .byte b last :: rest)
      (ready : cmdReady s = true) (eq : t = receive b last { s with sched := rest })
  /-- the output port stalled -/
  | stall (rest : List Move) (sched : s.sched = .stall :: rest) (eq : t = { s with sched := rest })
  /-- the reset input (R240) -/
  | rst (rest : List Move) (sched : s.sched = .rst :: rest) (eq : t = assertReset { s with sched := rest })
  /-- the block's own step -/
  | own (q : List Move) (a : Nat) (notRst : s.sched.head? ≠ some .rst)
      (eff : OwnEffect { s with sched := q, arb := a } t)

theorem passReady_iff (s : State) :
    passReady s = true ↔ s.act = .idle ∧ s.lock = false ∧ s.tickPend = true := by
  simp [passReady, and_assoc]

theorem ownStep_cases {c : Choice} {s t : State} (h : ownStep c s = .next t) : OwnEffect s t := by
  unfold ownStep at h
  split at h
  · rename_i hact
    unfold idleStep at h
    split at h
    · rename_i f hf
      split at h
      · rename_i hp
        cases h
        exact .pass hp.1 rfl
      · unfold startCommand at h
        split at h
        · cases h
          exact .phased f hact hf rfl
        · exact .whole f hact hf h
    · rename_i hf
      split at h
      · rename_i hp
        cases h
        exact .pass hp rfl
      · rename_i hp
        cases h
        exact .wait hact hf (by simpa using hp) rfl
  · rename_i k todo hact
    exact .command k todo hact h
  · rename_i m r hact
    exact .row m r hact h

theorem freeStep_cases {s t : State} (h : freeStep s = .next t) : ∃ a, OwnEffect { s with arb := a } t := by
  unfold freeStep at h
  split at h
  · exact ⟨_, ownStep_cases h⟩
  · exact ⟨s.arb, ownStep_cases h⟩

/-- Everything a step of the machine can do. -/
theorem step_cases {s t : State} (h : step s = .next t) : s.cfg.valid = true ∧ StepEffect s t := by
  unfold step at h
  split at h
  · rename_i hv
    refine ⟨hv, ?_⟩
    unfold scheduledStep at h
    split at h
    · rename_i hs
      obtain ⟨a, ha⟩ := freeStep_cases h
      exact .own s.sched a (by simp [hs]) ha
    · rename_i mv rest hs
      cases mv with
      | tick => cases h; exact .tick rest hs rfl
      | stall => cases h; exact .stall rest hs rfl
      | rst => cases h; exact .rst rest hs rfl
      | run c => exact .own rest s.arb (by simp [hs]) (ownStep_cases h)
      | byte b last =>
        simp only [applyMove, offerByte] at h
        split at h
        · rename_i hr
          cases h
          exact .byte b last rest hs hr rfl
        · obtain ⟨a, ha⟩ := freeStep_cases h
          exact .own (.byte b last :: rest) a (by simp [hs]) ha
  · cases h

end Sys2Proof.Machine
end

