-- ==== Sys2Proof/Tests/Slice0.lean ====
section
/-! SUPPORT. Small tests of one step each, expected values from spec/95_test_vectors.md and the rules' worked examples,
and for each statement with hypotheses a witness that meets them. -/

namespace Sys2Proof.Tests

open Sys2Proof Sys2Proof.Machine

/-! ## Helpers -/

/-- The register `f` of the next state, if there is one. -/
def got {α : Type} (f : State → α) (o : Host.Outcome State Fault Refusal) : Option α :=
  match o with
  | .next s => some (f s)
  | .fault _ => none
  | .refused _ => none

/-- A small instance (95_test_vectors.md M-6): NMAX = GMAX = 4. -/
def small : Config := { Config.default with nmax := 4, gmax := 4 }

/-- The small instance after reset. -/
def fresh : State := State.resetOf small

/-- The small instance, initialised with `n` modules, a mode and a delay, right after a commit of `content`. -/
def ready (n : Byte) (mode : Mode) (delay : Byte) (content : List Byte) : State :=
  { fresh with
    inited := true, n := n, pin := 4, mode := mode, delay := delay, fb := Memory.ofContent content,
    len := content.length, off := resetOff mode content.length, dir := resetDir mode, cnt := delay }

/-- Glyphs of 95_test_vectors.md. -/
def gA : Glyph := ⟨0x7E, 0x11, 0x11, 0x11, 0x7E, 0, 0, 0⟩
def gF : Glyph := ⟨0xFF, 0x01, 0x01, 0x0F, 0x01, 0x01, 0x01, 0⟩
def gS : Glyph := ⟨1, 2, 3, 4, 5, 6, 7, 8⟩
def x12 : List Byte := [0xA1, 0xA2, 0xA3, 0xA4, 0xA5, 0xA6, 0xA7, 0xA8, 0xA9, 0xAA, 0xAB, 0xAC, 0xAD, 0xAE, 0xAF, 0xB0]

/-- Long content on one module (95_test_vectors.md 2.6): LEN 16, C 8. -/
def long (mode : Mode) (delay : Byte) : State := ready 1 mode delay x12

/-- Short content on two modules: LEN 8, C 16. -/
def short : State := ready 2 .left 1 gA.toList

/-- A CLEAR in progress, at the start of phase P2 of its commit. -/
def inCommit : State :=
  { short with act := .cmd .clear [.replace (zeros 16), .scrollReset, .unlock], lock := true }

/-- A SETINT in progress on two modules, one word sent. -/
def inSetint : State := { short with act := .cmd .setint [.send ⟨2, 0x0A, 5⟩], trace := [⟨1, 0x0A, 5⟩] }

/-- A pass in progress on two modules, at its last transaction. -/
def inPass : State := { short with act := .scan 2 7 }

/-! ## WellFormed: each check with a term it refuses -/

theorem test_wf_init_pin_without_count : (Instr.init none (some 4) 1 .off 0).wellFormed = false := by decide
theorem test_wf_init_intensity_without_pin : (Instr.init (some 2) none 2 .off 0).wellFormed = false := by decide
theorem test_wf_init_mode_without_pin : (Instr.init (some 2) none 1 .left 0).wellFormed = false := by decide
theorem test_wf_init_delay_without_pin : (Instr.init none none 1 .off 1).wellFormed = false := by decide
theorem test_wf_write_too_many_records :
    (Instr.write .none false (List.replicate 256 [])).wellFormed = false := by
  rw [Instr.wellFormed, Instr.recordsOk, List.length_replicate]
  rfl
theorem test_wf_write_record_too_long :
    (Instr.write .none false [List.replicate 256 0]).wellFormed = false := by
  rw [Instr.wellFormed, Instr.recordsOk, List.all_cons, List.length_replicate]
  rfl

/-! ## Decode: words written out from 30_encoding.md (95_test_vectors.md 2.4) -/

theorem test_decode_init : decode [0b00010000, 0x02, 0x04] = .ok (.init (some 2) (some 4) 1 .off 0) := by rfl
theorem test_decode_init_full :
    decode [0b00010000, 0x02, 0x04, 0x01, 0x03, 0x02] = .ok (.init (some 2) (some 4) 1 .bounce 2) := by rfl
theorem test_decode_init_missing_operand : decode [0b00010000, 0x02] = .ok (.init (some 2) none 1 .off 0) := by rfl
theorem test_decode_init_too_long : decode [0b00010000, 2, 4, 1, 3, 2, 0] = .error .badLength := by rfl
theorem test_decode_setscroll : decode [0b00100000, 0x01, 0x05] = .ok (.setscroll .left 5) := by rfl
theorem test_decode_setscroll_reserved_mode : decode [0b00100000, 0x04, 0x01] = .error .reservedMode := by rfl
theorem test_decode_clear : decode [0b00110000] = .ok .clear := by rfl
theorem test_decode_write_right_inverted :
    decode [0b01000110, 0x01, 0x08, 1, 2, 3, 4, 5, 6, 7, 8] = .ok (.write .right true [gS.toList]) := by rfl
theorem test_decode_write_no_records : decode [0b01000001, 0x00] = .ok (.write .left false []) := by rfl
theorem test_decode_write_one_byte_left : decode [0x40, 0x01, 0x02, 0x01, 0x02, 0x03] = .error .badRecords := by rfl
theorem test_decode_write_past_the_frame : decode [0x40, 0x01, 0x08, 1, 2, 3] = .error .badRecords := by rfl
theorem test_decode_write_reserved_rotate : decode [0b01000011, 0x00] = .error .reservedRotate := by rfl
theorem test_decode_write_bit3 : decode [0b01001000, 0x00] = .error .unknownOpcode := by rfl
theorem test_decode_setint : decode [0b01010000, 0x0F] = .ok (.setint 15) := by rfl
theorem test_decode_setpwr_off : decode [0b01100000] = .ok (.setpwr false) := by rfl
theorem test_decode_setpwr_on : decode [0b01100001] = .ok (.setpwr true) := by rfl
theorem test_decode_unassigned :
    decode [0b01100010] = .error .unknownOpcode ∧ decode [0x31] = .error .unknownOpcode := ⟨rfl, rfl⟩
theorem test_table_words :
    decodeTableWord 8 0x20 = some (.setscroll .off 0) ∧ decodeTableWord 8 0x44 = some (.write .none true []) ∧
      decodeTableWord 8 0x61 = some (.setpwr true) ∧ decodeTableWord 8 0x70 = none := by decide

/-! ## Geometry (95_test_vectors.md 2.1 to 2.3) -/

theorem test_reverseBits : reverseBits 0x12 = 0x48 ∧ reverseBits 0x6E = 0x76 := by decide
theorem test_rotL : rotL gA = ⟨0x00, 0x11, 0x11, 0x1F, 0x11, 0x11, 0x11, 0x0E⟩ := by decide
theorem test_rotR : rotR gA = ⟨0x70, 0x88, 0x88, 0x88, 0xF8, 0x88, 0x88, 0x00⟩ := by decide
theorem test_rotswap : rotateLeft true gA = ⟨0x70, 0x88, 0x88, 0x88, 0xF8, 0x88, 0x88, 0x00⟩ := by decide
theorem test_compose_inverted :
    compose false .none true [gA, gF]
      = [0, 0, 0, 0x7E, 0x88, 0x88, 0x88, 0x7E, 0, 0x80, 0x80, 0x80, 0xF0, 0x80, 0x80, 0xFF] := by decide
theorem test_compose_left_inverted :
    compose false .left true [gF] = [0xFE, 0x90, 0x90, 0x90, 0x80, 0x80, 0x80, 0x80] := by decide

/-! ## One step a command, at most two a command -/

/-- 44_config.md R198, worked example: `INIT 2, 4`. -/
theorem test_init_trace :
    got State.trace (exec (.init (some 2) (some 4) 1 .off 0) fresh)
      = some [⟨1, 0x0B, 7⟩, ⟨2, 0x0B, 7⟩, ⟨1, 0x09, 0⟩, ⟨2, 0x09, 0⟩, ⟨1, 0x0F, 0⟩, ⟨2, 0x0F, 0⟩, ⟨1, 0x0A, 1⟩,
          ⟨2, 0x0A, 1⟩, ⟨1, 0x0C, 1⟩, ⟨2, 0x0C, 1⟩] := by decide

/-- 95_test_vectors.md E-4: (MODE, DELAY, OFF, DIR, CNT, LEN) = (3, 2, 16, −1, 2, 16). -/
theorem test_init_scroll_state :
    got (fun t => (t.mode, t.delay, t.off, t.dir, t.cnt, t.len))
        (exec (.init (some 2) (some 4) 1 .bounce 2) fresh) = some (.bounce, 2, 16, .minus, 2, 16) := by decide

/-- 42_scroll.md R165, worked example: `SETSCROLL RIGHT, 2` from (left, 1, 5, −1, 1). -/
theorem test_setscroll :
    got (fun t => (t.mode, t.delay, t.off, t.dir, t.cnt, t.len))
        (exec (.setscroll .right 2) { long .left 1 with off := 5 }) = some (.right, 2, 0, .plus, 2, 16) := by decide

/-- 95_test_vectors.md M-3: CLEAR in (left, 3) with N = 2. -/
theorem test_clear :
    got (fun t => (t.len, t.off, t.dir, t.cnt, fbRead t 16)) (exec .clear (ready 2 .left 3 x12))
      = some (16, 16, .minus, 3, some 0) := by decide

/-- 95_test_vectors.md M-1: one glyph on two modules; index 9 is beyond LEN. -/
theorem test_write :
    got (fun t => (t.len, fbRead t 1, fbRead t 8, fbRead t 9))
        (exec (.write .none false [x12.take 8]) (ready 2 .off 0 [])) = some (8, some 0xA1, some 0xA8, some 0) := by
  decide

/-- 95_test_vectors.md M-4: a 7-byte second glyph; the prior buffer is retained. -/
theorem test_write_bad_glyph :
    got (fun t => (t.responses, t.errFlags, t.len, t.off))
        (exec (.write .none true [gA.toList, [1, 2, 3, 4, 5, 6, 7]]) (long .bounce 2))
      = some ([.error .invalidGlyph], 0b000010, 16, 16) := by decide

/-- 44_config.md R200, worked example: N = 3, `SETINT 15`. -/
theorem test_setint :
    got State.trace (exec (.setint 15) (ready 3 .off 0 []))
      = some [⟨1, 0x0A, 0x0F⟩, ⟨2, 0x0A, 0x0F⟩, ⟨3, 0x0A, 0x0F⟩] := by decide

/-- 95_test_vectors.md E-27: `SETINT 16` is rejected, not clamped. -/
theorem test_setint_out_of_range :
    got (fun t => (t.trace, t.responses)) (exec (.setint 16) (ready 2 .off 0 []))
      = some ([], [.error .outOfRangeIntensity]) := by decide

/-- 44_config.md R202, worked example: N = 2, `SETPWR OFF`. -/
theorem test_setpwr :
    got State.trace (exec (.setpwr false) (ready 2 .off 0 [])) = some [⟨1, 0x0C, 0⟩, ⟨2, 0x0C, 0⟩] := by decide

/-- 95_test_vectors.md E-33: a command before INIT. -/
theorem test_not_initialized :
    got (fun t => (t.responses, t.errFlags)) (exec .clear fresh) = some ([.error .notInitialized], 0b010000) := by
  decide

/-! ## The scroll engine and the pass -/

/-- 95_test_vectors.md SC-10, both boundaries of each mode. -/
theorem test_scroll_step_boundaries :
    (scrollStep { long .left 1 with off := -8 }).off = 16 ∧ (scrollStep { long .left 1 with off := -7 }).off = -8 ∧
    (scrollStep { long .right 1 with off := 16 }).off = -8 ∧ (scrollStep { long .right 1 with off := 15 }).off = 16 ∧
    (scrollStep { long .bounce 1 with off := -8 }).off = -8 ∧
    (scrollStep { long .bounce 1 with off := -8 }).dir = .plus ∧
    (scrollStep { long .bounce 1 with off := 16, dir := .plus }).dir = .minus := by decide

/-- 95_test_vectors.md SC-6: DELAY = 0 advances on every step and CNT stays 0. -/
theorem test_scroll_step_delay_zero :
    (scrollStep (long .right 0)).off = 1 ∧ (scrollStep (long .right 0)).cnt = 0 := by decide

/-- 43_scanout.md R182, worked example. -/
theorem test_pass :
    got (fun t => (t.off, t.trace)) (wholePass (tick (long .left 1)))
      = some (15, [⟨1, 1, 0xB0⟩, ⟨1, 2, 0⟩, ⟨1, 3, 0⟩, ⟨1, 4, 0⟩, ⟨1, 5, 0⟩, ⟨1, 6, 0⟩, ⟨1, 7, 0⟩, ⟨1, 8, 0⟩]) := by
  decide

/-- 95_test_vectors.md SO-4: a tick before INIT is ignored. -/
theorem test_tick_before_init : tick fresh = fresh := by decide

/-- 95_test_vectors.md SO-2: the latched transaction of (2,04,0C) on three modules. -/
theorem test_transaction : latchedWords 3 ⟨2, 0x04, 0x0C⟩ = [0x0000, 0x040C, 0x0000] := by decide

/-! ## The machine -/

/-- An opcode-table word placed and run: SETPWR ON before INIT (95_test_vectors.md E-33's rule R216). -/
theorem test_withFetchWord :
    got (fun t => (t.responses, t.frame)) (step (fresh.withFetchWord 8 0x61))
      = some ([.error .notInitialized], none) := by decide

/-- R242: `rst` inside a commit. -/
theorem test_reset_inside_a_commit :
    got id (step { inCommit with sched := [.rst] }) = some fresh := by decide

/-- A move the block cannot make, an invalid instance: refused by name (log 2). -/
theorem test_no_such_instance :
    (match step { fresh with cfg := { small with gmax := 3 } } with | .refused r => some r | _ => none)
      = some .noSuchInstance := by decide

/-- A register numbered as the no-op, 0x00 (R196, log 2). -/
theorem test_noop_register_number :
    { small with regDecode := 0 }.valid = false ∧
      { small with regRow := ⟨0, 2, 3, 4, 5, 6, 7, 8⟩ }.valid = false := by decide

/-! ## Witnesses: states and operands that meet the hypotheses of the statements -/

theorem next_of_got {o : Host.Outcome State Fault Refusal} (h : (got id o).isSome = true) : ∃ t, o = .next t := by
  cases o with
  | next t => exact ⟨t, rfl⟩
  | fault r => cases h
  | refused r => cases h

theorem test_witness_DecodeOfEncodeIsTheCommand :
    (Instr.init (some 0) (some 255) 255 .bounce 255).wellFormed = true ∧
    (Instr.init (some 255) none 1 .off 0).wellFormed = true ∧ (Instr.init none none 1 .off 0).wellFormed = true ∧
    (Instr.setscroll .bounce 255).wellFormed = true ∧ Instr.clear.wellFormed = true ∧
    (Instr.setint 255).wellFormed = true ∧ (Instr.setpwr true).wellFormed = true ∧
    (Instr.write .right true [[], List.replicate 255 0]).wellFormed = true := by
  refine ⟨by decide, by decide, by decide, by decide, by decide, by decide, by decide, ?_⟩
  rw [Instr.wellFormed, Instr.recordsOk, List.all_cons, List.all_cons, List.length_replicate]
  rfl

theorem test_witness_DecodedFrameIsTheEncoding :
    decode [0x10, 2, 4] = .ok (.init (some 2) (some 4) 1 .off 0) ∧
    decode [0x10, 2, 4, 1, 3] = .ok (.init (some 2) (some 4) 1 .bounce 0) ∧
    decode [0x10, 2, 4, 1, 3, 2] = .ok (.init (some 2) (some 4) 1 .bounce 2) ∧
    decode [0x50, 0xFF] = .ok (.setint 0xFF) := ⟨rfl, rfl, rfl, rfl⟩

/-- One frame for each of the eleven cases, in their order. -/
theorem test_witness_MalformedFramesRaiseIllegalCommand :
    ((0x62 : Byte) ≠ 0x10 ∧ (0x62 : Byte) ≠ 0x20 ∧ (0x62 : Byte) ≠ 0x30 ∧ (0x62 : Byte) &&& 0xF8 ≠ 0x40 ∧
      (0x62 : Byte) ≠ 0x50 ∧ (0x62 : Byte) &&& 0xFE ≠ 0x60) ∧
    5 < ([2, 4, 1, 3, 2, 0] : List Byte).length ∧
    ([1] : List Byte).length ≠ 2 ∧ ([1, 5, 0] : List Byte).length ≠ 2 ∧
    ([0] : List Byte).length ≠ 0 ∧
    ([] : List Byte).length ≠ 1 ∧ ([1, 1] : List Byte).length ≠ 1 ∧
    ((0x61 : Byte) &&& 0xFE = 0x60 ∧ ([0] : List Byte).length ≠ 0) ∧
    ((0x40 : Byte) &&& 0xF8 = 0x40 ∧ ([] : List Byte).length = 0) ∧
    (∃ d, ([1, 4] : List Byte) = [1, d] ∧ 4 ≤ (4 : Byte).toNat) ∧
    (∃ m, ([2, 4, 1, 4] : List Byte)[3]? = some m ∧ 4 ≤ m.toNat) ∧
    ((0x47 : Byte) &&& 0xF8 = 0x40 ∧ (0x47 : Byte) &&& 0x03 = 0x03) := by
  refine ⟨by decide, by decide, by decide, by decide, by decide, by decide, by decide, by decide, by decide,
    ⟨4, by decide⟩, ⟨4, by decide⟩, by decide⟩

/-- The case of the records: `40 01 02 01 02 03` (95_test_vectors.md E-19), one byte left over. -/
theorem test_witness_MalformedFrames_records :
    (0x40 : Byte) &&& 0xF8 = 0x40 ∧
    ∃ g rest, ([1, 2, 1, 2, 3] : List Byte) = g :: rest ∧
      ¬ ∃ records : List (List Byte), records.length = g.toNat ∧ (∀ r ∈ records, r.length ≤ 255) ∧
        rest = records.flatMap fun r => BitVec.ofNat 8 r.length :: r := by
  refine ⟨by decide, 1, [2, 1, 2, 3], rfl, ?_⟩
  rintro ⟨records, hl, -, hr⟩
  match records, hl with
  | [r], _ =>
    simp only [List.flatMap_cons, List.flatMap_nil, List.append_nil, List.cons.injEq] at hr
    obtain ⟨h1, rfl⟩ := hr
    exact absurd h1 (by decide)

/-- HOST offering the frame `10 02 04` byte by byte to the fresh block. -/
def offering : State := { fresh with sched := [.byte 0x10 false, .byte 2 false, .byte 4 true] }

/-- The rest of that frame offered while a pass runs between two of its bytes. -/
def offeringInPass : State := { inPass with rx := [0x10, 2], sched := [.byte 4 true] }

theorem test_witness_FrameIsReceivedByteByByte :
    (offering.cfg.valid = true ∧ offering.act = .idle ∧ offering.frame = none ∧
      offering.sched = ([0x10, 2] : List Byte).map (fun x => Move.byte x false) ++ .byte 4 true :: []) ∧
    offeringInPass.cfg.valid = true ∧ (offeringInPass.act = .scan 2 7 ∧ offeringInPass.rx ≠ []) ∧
      offeringInPass.frame = none ∧
      offeringInPass.sched = ([] : List Byte).map (fun x => Move.byte x false) ++ .byte 4 true :: [] := by decide

theorem test_witness_BusyBlockMakesTheHostWait :
    (∃ s : State, s.cfg.valid = true ∧ s.act = .cmd .setint [.send ⟨2, 0x0A, 5⟩] ∧ s.rx = [] ∧
      s.sched = [.byte 0x30 true]) ∧
    (∃ s : State, s.cfg.valid = true ∧ s.act = .scan 2 7 ∧ s.rx = [] ∧ s.sched = [.byte 0x30 true]) ∧
    ∃ s : State, s.cfg.valid = true ∧ s.act = .scan 2 7 ∧ s.frame ≠ none ∧ s.sched = [.byte 0x30 true] :=
  ⟨⟨{ inSetint with sched := [.byte 0x30 true] }, by decide⟩, ⟨{ inPass with sched := [.byte 0x30 true] }, by decide⟩,
    { inPass with frame := some [0x30], sched := [.byte 0x30 true] }, by decide⟩

theorem test_witness_FirstFailingCheckIsReported :
    decode [0x62] = .error .unknownOpcode ∧
    (fresh.inited = false ∧ ∀ nn pp ii mm dd, Instr.clear ≠ .init nn pp ii mm dd) ∧
    ((0 : Byte).toNat = 0 ∧ fresh.cfg.nmax < (5 : Byte).toNat) ∧
    (1 ≤ (1 : Byte).toNat ∧ (4 : Byte).toNat ≤ fresh.cfg.nmax ∧ 15 < (16 : Byte).toNat) ∧
    (short.inited = true ∧ short.cfg.gmax < (List.replicate 5 gA.toList).length) ∧
    ((List.replicate 4 gA.toList).length ≤ short.cfg.gmax ∧ (∃ r ∈ [gA.toList, [1, 2, 3]], r.length ≠ 8) ∧
      ∃ r ∈ [[1, 2, 3, 4, 5, 6, 7, 8, (9 : Byte)]], r.length ≠ 8) := by
  refine ⟨rfl, ⟨rfl, by simp⟩, by decide, by decide, by decide, by decide⟩

theorem test_witness_CommandIsAllOrNothing :
    (∃ t, exec .clear short = .next t) ∧ ∃ t, exec .clear fresh = .next t :=
  ⟨next_of_got (by decide), next_of_got (by decide)⟩

theorem test_witness_ComposePlacesEveryRow : [gA, gF][0]? = some gA ∧ [gA, gF][1]? = some gF := by decide

theorem test_witness_WriteCommitsTheComposedGlyphs :
    short.inited = true ∧ ([] : List Glyph).length ≤ short.cfg.gmax ∧ [gA, gF, gS, gA].length ≤ short.cfg.gmax := by
  decide

theorem test_witness_ClearCommitsBlankColumns :
    ∃ s : State, s.inited = true ∧ s.cfg.valid = true ∧ s.n.toNat = s.cfg.nmax := ⟨ready 4 .off 0 [], by decide⟩

theorem test_witness_SetscrollReplacesTheScrollState : short.inited = true ∧ (long .bounce 0).inited = true := by decide

theorem test_witness_InitInitialisesTheBlock :
    fresh.cfg.valid = true ∧ 1 ≤ (1 : Byte).toNat ∧ (4 : Byte).toNat ≤ fresh.cfg.nmax ∧ (0 : Byte).toNat ≤ 15 ∧
      (15 : Byte).toNat ≤ 15 := by decide

theorem test_witness_SetintBroadcastsTheIntensity :
    short.inited = true ∧ (0 : Byte).toNat ≤ 15 ∧ (15 : Byte).toNat ≤ 15 := by decide

theorem test_witness_SetpwrBroadcastsThePowerByte : short.inited = true := by decide

theorem test_witness_CommittedContentReadsBack :
    (∃ t, commit [] short = .next t) ∧ ∃ t, commit (zeros 32) short = .next t :=
  ⟨next_of_got (by decide), next_of_got (by decide)⟩

theorem test_witness_ReadFollowsTheRule :
    ((1 : Int) ≤ 1 ∧ (1 : Int) ≤ short.len) ∧ (8 : Int) ≤ short.len ∧ (0 : Int) < 1 ∧ (short.len : Int) < 9 := by
  decide

theorem test_witness_ScrollResetFollowsTheMode :
    (long .off 1).mode = .off ∧ (long .left 1).mode = .left ∧ (long .right 1).mode = .right ∧
      (long .bounce 1).mode = .bounce := by decide

/-- A countdown of 2; the last move inside each bound; the first beyond each. -/
theorem test_witness_ScrollStepFollowsTheRule :
    ∀ mode ∈ [Mode.left, Mode.right, Mode.bounce], (long mode 1).mode ≠ .off ∧ 1 < (long mode 2).cnt.toNat ∧
      (long mode 1).cnt.toNat ≤ 1 ∧ (long mode 0).cnt.toNat ≤ 1 ∧
      -(8 * ((long mode 1).n.toNat : Int)) ≤ -7 + Dir.minus.toInt ∧ 15 + Dir.plus.toInt ≤ (long mode 1).len ∧
      (-8 + Dir.minus.toInt < -(8 * ((long mode 1).n.toNat : Int)) ∧ ((long mode 1).len : Int) < 16 + Dir.plus.toInt) := by
  decide

theorem settled_long (mode : Mode) : Settled (long mode 1) := by
  cases mode <;> exact ⟨by decide, by decide, by decide, by decide, by simp [DirAgrees, long, ready, resetOff, resetDir],
    by decide, by decide⟩

theorem test_witness_OffsetStaysWithinItsBounds :
    ∀ mode ∈ [Mode.left, Mode.right, Mode.bounce], Settled (long mode 1) ∧ scrolls (long mode 1) = true :=
  fun mode h => ⟨settled_long mode, by revert mode; decide⟩

theorem test_witness_ScrollCyclesReturnToTheReset :
    ∀ mode ∈ [Mode.left, Mode.right, Mode.bounce], scrolls (long mode 3) = true ∧ (long mode 3).mode = mode ∧
      0 ≤ (long mode 3).len ∧ 24 ≤ (long mode 3).len + (long mode 3).c ∧ 8 ≤ (long mode 3).c := by decide

theorem test_witness_TickOnlyMarksThePendingBit :
    ∃ s : State, s.cfg.valid = true ∧ s.sched = [.tick] ∧ s.inited = false := ⟨{ fresh with sched := [.tick] }, by decide⟩

/-- An idle block with a tick pending. -/
def ticked : State := { short with tickPend := true }

theorem notReset_of_nil {s : State} (h : s.sched = []) : notReset s := by simp [notReset, h]

theorem test_witness_PassStartsExactlyWhenAllowed :
    (∃ t, step ticked = .next t ∧ (∀ m r, ticked.act ≠ .scan m r) ∧ ∃ m r, t.act = .scan m r) ∧
    ticked.cfg.valid = true ∧ ticked.act = .idle ∧ ticked.lock = false ∧ ticked.tickPend = true ∧
      ticked.frame = none ∧ ticked.sched = [] := by
  refine ⟨?_, by decide⟩
  have h : got State.act (step ticked) = some (.scan 1 0) := by decide
  obtain ⟨t, ht⟩ := next_of_got (o := step ticked) (by decide)
  refine ⟨t, ht, by simp [ticked, short, ready, fresh, State.resetOf], 1, 0, ?_⟩
  rw [ht] at h
  simpa [got] using h

theorem test_witness_PassStartStepsThenLatchesTheOffset :
    ((long .left 1).mode ≠ .off ∧ 8 * (long .left 1).n.toNat < (long .left 1).len) ∧
    (long .off 1).mode = .off ∧ (ready 2 .left 1 x12).len ≤ 8 * (ready 2 .left 1 x12).n.toNat := by decide

theorem test_witness_RowStepEmitsOneRow :
    inPass.cfg.valid = true ∧ inPass.act = .scan 2 7 ∧ inPass.sched = [] ∧
    fbRead inPass (((2 : Nat) - 1 : Int) * 8 + ((7 : Fin 8).val + 1 : Int) + inPass.e) = some 0 := by decide

theorem settled_short : Settled short :=
  ⟨by decide, by decide, by decide, by decide, rfl, by decide, by decide⟩

/-- A state that differs from `short` in no register the invariant reads. -/
theorem settled_like_short {s : State} (h : (s.n, s.cfg, s.inited, s.off, s.len, s.cnt, s.delay, s.mode, s.dir)
    = (short.n, short.cfg, short.inited, short.off, short.len, short.cnt, short.delay, short.mode, short.dir)) :
    Settled s := by
  simp only [Prod.mk.injEq] at h
  obtain ⟨h1, h2, h3, h4, h5, h6, h7, h8, h9⟩ := h
  exact settled_congr settled_short h1 h2 h3 h4 h5 h6 h7 h8 h9 (fun h => absurd (h3.symm.trans h) (by decide))

theorem inv_ticked : Inv ticked := ⟨by decide, by decide, by decide, by decide, rfl, settled_like_short rfl⟩

theorem inv_inPass : Inv inPass :=
  ⟨by decide, by decide, by decide, by decide, rfl, settled_like_short rfl, rfl, by decide, by decide, by decide⟩

theorem inv_inSetint : Inv inSetint :=
  ⟨by decide, by decide, by decide, by decide, rfl, rfl, by decide, _, rfl, settled_like_short rfl⟩

theorem inv_inCommit : Inv inCommit := by
  refine ⟨by decide, by decide, by decide, by decide, rfl, rfl, by decide, _, rfl, ?_⟩
  exact ⟨by decide, by decide, by decide, by decide, rfl, by decide, by decide⟩

theorem test_witness_PassIsTheWholePassFunction :
    Inv ticked ∧ ticked.act = .idle ∧ ticked.tickPend = true ∧ ticked.frame = none ∧ ticked.sched = [] :=
  ⟨inv_ticked, by decide⟩

theorem test_witness_PassReadsTheWindowInOrder :
    (∃ t, wholePass (tick (long .left 1)) = .next t) ∧ 0 < 8 * (long .left 1).n.toNat ∧ 7 < 8 * (long .left 1).n.toNat :=
  ⟨next_of_got (by decide), by decide⟩

theorem test_witness_PassWritesOnlyScrollStateAndRows : ∃ t, wholePass ticked = .next t := next_of_got (by decide)

theorem test_witness_PassSeesOneVersionOfTheBuffer :
    ∃ s t : State, s.act = .scan 2 7 ∧ notReset s ∧ s.frame ≠ none ∧ step s = .next t := by
  obtain ⟨t, ht⟩ := next_of_got (o := step { inPass with frame := some [0x30] }) (by decide)
  exact ⟨{ inPass with frame := some [0x30] }, t, rfl, notReset_of_nil rfl, by decide, ht⟩

theorem test_witness_ActivitySendsExactlyItsWords :
    (Inv inSetint ∧ inSetint.act ≠ .idle ∧ notReset inSetint ∧ ∃ t, step inSetint = .next t) ∧
    (Inv inPass ∧ inPass.act ≠ .idle ∧ notReset inPass ∧ ∃ t, step inPass = .next t) :=
  ⟨⟨inv_inSetint, by decide, notReset_of_nil rfl, next_of_got (by decide)⟩,
    inv_inPass, by decide, notReset_of_nil rfl, next_of_got (by decide)⟩

theorem test_witness_PassShowsTheWindow :
    ticked.cfg.valid = true ∧ (∃ t, wholePass ticked = .next t) ∧ 1 ≤ 2 ∧ 2 ≤ ticked.n.toNat :=
  ⟨by decide, next_of_got (by decide), by decide, by decide⟩

theorem test_witness_PassAfterClearIsBlank : short.inited = true ∧ ∃ t, exec .clear short = .next t :=
  ⟨rfl, next_of_got (by decide)⟩

theorem test_witness_WrittenGlyphsReachTheDisplay :
    short.inited = true ∧ [gA, gF].length ≤ short.cfg.gmax ∧ [gA, gF].length = short.n.toNat ∧
      ∃ t, exec (.write .left true ([gA, gF].map Eight.toList)) short = .next t :=
  ⟨rfl, by decide, by decide, next_of_got (by decide)⟩

/-- An idle block at whose port CLEAR waits. -/
def waiting : State := { short with frame := some [0x30] }

theorem test_witness_StepRunsTheDecodedFrame :
    waiting.cfg.valid = true ∧ waiting.act = .idle ∧ waiting.frame = some [0x30] ∧ decode [0x30] = .ok .clear ∧
    waiting.sched = [] ∧ waiting.tickPend = false ∧ decode [0x31] = .error .unknownOpcode ∧
    ({ waiting with sched := [.run .command] } : State).sched = [.run .command] :=
  ⟨by decide, rfl, rfl, rfl, rfl, rfl, rfl, rfl⟩

theorem test_witness_EitherOperationMayStart :
    ∀ q ∈ [[], [Move.run .command], [Move.run .pass]], ∃ s : State, s.cfg.valid = true ∧ s.act = .idle ∧
      s.lock = false ∧ s.tickPend = true ∧ s.frame = some [0x30] ∧ s.sched = q :=
  fun q _ => ⟨{ waiting with tickPend := true, sched := q }, (by decide : small.valid = true), rfl, rfl, rfl, rfl, rfl⟩

theorem test_witness_PhasedCommandEqualsTheWhole :
    ∃ s t : State, s.cfg.valid = true ∧ s.act = .idle ∧ s.frame = some [0x30] ∧ decode [0x30] = .ok .clear ∧
      s.sched = [.run .commandPhased] ∧ exec .clear { s with frame := none, sched := [] } = .next t := by
  obtain ⟨t, ht⟩ := next_of_got (o := exec .clear short) (by decide)
  exact ⟨{ waiting with sched := [.run .commandPhased] }, t, by decide, rfl, rfl, rfl, rfl, ht⟩

theorem test_witness_ResetInputAbandonsTheActivity :
    ∃ s : State, s.cfg.valid = true ∧ s.lock = true ∧ s.sched = [.rst] := ⟨{ inCommit with sched := [.rst] }, by decide⟩

theorem test_witness_ResetStateIsInvariant : Config.default.valid = true ∧ small.valid = true := by decide

theorem test_witness_StepKeepsTheInvariant :
    (Inv inCommit ∧ ∃ t, step inCommit = .next t) ∧ (Inv inPass ∧ ∃ t, step inPass = .next t) ∧
      (Inv ticked ∧ ∃ t, step ticked = .next t) :=
  ⟨⟨inv_inCommit, next_of_got (by decide)⟩, ⟨inv_inPass, next_of_got (by decide)⟩,
    inv_ticked, next_of_got (by decide)⟩

theorem test_witness_InvariantStatesNeverStop : Inv ticked ∧ Inv inCommit ∧ Inv inPass ∧ Inv inSetint :=
  ⟨inv_ticked, inv_inCommit, inv_inPass, inv_inSetint⟩

theorem test_witness_LockIsHeldOnlyInsideACommit : Inv inCommit ∧ inCommit.lock = true := ⟨inv_inCommit, rfl⟩

theorem test_witness_RegisterWidthsSuffice :
    (Inv inPass ∧ (∀ k todo, inPass.act ≠ .cmd k todo) ∧ inPass.act = .scan 2 7) ∧
      Inv ticked ∧ ∀ k todo, ticked.act ≠ .cmd k todo :=
  ⟨⟨inv_inPass, by simp [inPass], rfl⟩, inv_ticked, by simp [ticked, short, ready, fresh, State.resetOf]⟩

theorem test_witness_BufferKeepsItsCanonicalForm : Inv inCommit ∧ ∃ t, step inCommit = .next t :=
  ⟨inv_inCommit, next_of_got (by decide)⟩

/-- A fresh block at whose port `INIT 1, 4, 1, LEFT, 1` waits. -/
def starting : State := { fresh with frame := some [0x10, 1, 4, 1, 1, 1] }

/-- A step in which the named registers change: a whole INIT writes N, PIN, MODE, DELAY, FB, LEN and INITED. -/
theorem test_witness_EachRegisterHasItsWriters :
    ∃ s t : State, notReset s ∧ step s = .next t ∧ t.n ≠ s.n ∧ t.pin ≠ s.pin ∧ t.mode ≠ s.mode ∧ t.delay ≠ s.delay ∧
      t.fb ≠ s.fb ∧ t.len ≠ s.len ∧ t.inited ≠ s.inited := by
  have h1 : got (fun t => (t.n, t.pin, t.mode, t.delay)) (step starting) = some (1, 4, .left, 1) := by decide
  have h2 : got (fun t => (t.fb, t.len, t.inited)) (step starting) = some (Memory.ofContent (zeros 8), 8, true) := by
    decide
  obtain ⟨t, ht⟩ := next_of_got (o := step starting) (by decide)
  rw [ht] at h1 h2
  simp only [got, Option.some.injEq, Prod.mk.injEq] at h1 h2
  refine ⟨starting, t, notReset_of_nil rfl, ht, ?_⟩
  rw [h1.1, h1.2.1, h1.2.2.1, h1.2.2.2, h2.1, h2.2.1, h2.2.2]
  decide

theorem test_witness_ErrorFlagsAreSticky :
    ∃ s t : State, notReset s ∧ errFlag .contentTooLong s.errFlags = true ∧ step s = .next t := by
  obtain ⟨t, ht⟩ := next_of_got (o := step { waiting with errFlags := 0b100000 }) (by decide)
  exact ⟨{ waiting with errFlags := 0b100000 }, t, notReset_of_nil rfl, by decide, ht⟩

theorem test_witness_OutputsOnlyGrow : notReset inPass ∧ ∃ t, step inPass = .next t :=
  ⟨notReset_of_nil rfl, next_of_got (by decide)⟩

theorem test_witness_RunModeIsLeftByResetOnly :
    notReset waiting ∧ waiting.inited = true ∧ ∃ t, step waiting = .next t :=
  ⟨notReset_of_nil rfl, rfl, next_of_got (by decide)⟩

theorem test_witness_ActivitiesEnd :
    (Inv inCommit ∧ inCommit.sched = [] ∧ ∃ k todo, inCommit.act = .cmd k todo) ∧
      (Inv inPass ∧ inPass.sched = [] ∧ inPass.act = .scan 2 7) :=
  ⟨⟨inv_inCommit, rfl, _, _, rfl⟩, inv_inPass, rfl, rfl⟩

/-- One state for each activity a tick can wait behind, and one with a frame waiting too. -/
theorem test_witness_PendingTickIsServed :
    ∀ s ∈ [ticked, { ticked with frame := some [0x30] }, { inPass with tickPend := true },
        { inSetint with tickPend := true }], Inv s ∧ s.sched = [] ∧ s.tickPend = true := by
  simp only [List.mem_cons, List.not_mem_nil, or_false]
  rintro s (rfl | rfl | rfl | rfl)
  · exact ⟨inv_ticked, rfl, rfl⟩
  · exact ⟨⟨by decide, by decide, by decide, by decide, rfl, settled_like_short rfl⟩, rfl, rfl⟩
  · exact ⟨⟨by decide, by decide, by decide, by decide, rfl, settled_like_short rfl, rfl, by decide, by decide,
      by decide⟩, rfl, rfl⟩
  · exact ⟨⟨by decide, by decide, by decide, by decide, rfl, rfl, by decide, _, rfl, settled_like_short rfl⟩, rfl, rfl⟩

theorem test_witness_NoopRegisterIsNeverSent : Inv inPass ∧ inPass.act = .scan 2 7 ∧ ∃ t, step inPass = .next t :=
  ⟨inv_inPass, rfl, next_of_got (by decide)⟩

theorem test_witness_TransactionReachesOneChip :
    0 < 3 ∧ 2 < 3 ∧ (⟨3, 0x04, 0x0C⟩ : SendWord).reg ≠ 0 ∧ 2 + 1 = (⟨3, 0x04, 0x0C⟩ : SendWord).m := by decide

theorem test_witness_PinsAreCopies : fresh.pins.cmdReady = true ∧ waiting.pins.cmdReady = false := by decide

end Sys2Proof.Tests
end

section
/-! Proofs for the statements about the state: the lock, the register widths, the buffer's form, the sticky flags, the
pins. What a step keeps is shown once, for any predicate the elementary updates keep. -/

namespace Sys2Proof.Machine

open Sys2Proof

/-! ## What every step but a reset keeps -/

/-- The updates a step is made of, apart from the reset, keep `P`. -/
structure KeptByUpdates (P : State → Prop) : Prop where
  /-- moves of the schedule, the port, the activity and the pending tick -/
  world : ∀ (s : State) (a : Act) (q : List Move) (b : Nat) (r : List Byte) (f : Option (List Byte)) (tp : Bool),
    P s → P { s with act := a, sched := q, arb := b, rx := r, frame := f, tickPend := tp }
  /-- the first action of a pass (R178) -/
  passOffset : ∀ s : State, P s → P (passOffset s)
  /-- one phase of a command -/
  phase : ∀ (p : Phase) (s t : State), phaseStep p s = .next t → P s → P t
  /-- the response OK (R91) -/
  respondOk : ∀ s : State, P s → P (respondOk s)
  /-- an error (R214) -/
  raise : ∀ (e : Err) (s : State), P s → P (raise e s)

/-- A command either raises one error or is its phases and the response. -/
theorem exec_cases {i : Instr} {s t : State} (h : exec i s = .next t) :
    (∃ e, t = raise e s) ∨ ∃ todo, finish todo s = .next t := by
  cases hp : plan i s with
  | error e =>
    rw [exec_of_plan_error hp] at h
    cases h
    exact .inl ⟨e, rfl⟩
  | ok p => exact .inr ⟨p.2, by rw [← exec_of_plan hp, h]⟩

namespace KeptByUpdates

variable {P : State → Prop}

theorem keeps_act (h : KeptByUpdates P) {s : State} (a : Act) (hs : P s) : P { s with act := a } :=
  h.world s a s.sched s.arb s.rx s.frame s.tickPend hs

theorem keeps_takeFrame (h : KeptByUpdates P) {s : State} (hs : P s) : P (takeFrame s) :=
  h.world s s.act s.sched s.arb s.rx none s.tickPend hs

theorem keeps_tick (h : KeptByUpdates P) {s : State} (hs : P s) : P (tick s) := by
  unfold tick
  split
  · exact h.world s s.act s.sched s.arb s.rx s.frame true hs
  · exact hs

theorem keeps_receive (h : KeptByUpdates P) (b : Byte) (last : Bool) {s : State} (hs : P s) : P (receive b last s) := by
  unfold receive
  split
  · exact h.world s s.act s.sched s.arb [] _ s.tickPend hs
  · exact h.world s s.act s.sched s.arb _ s.frame s.tickPend hs

theorem keeps_passStart (h : KeptByUpdates P) {s : State} (hs : P s) : P (passStart s) :=
  h.passOffset _ (h.world s (.scan 1 0) s.sched s.arb s.rx s.frame false hs)

theorem keeps_finish (h : KeptByUpdates P) {todo : List Phase} {s t : State} (hf : finish todo s = .next t)
    (hs : P s) : P t := by
  induction todo generalizing s with
  | nil => cases hf; exact h.respondOk s hs
  | cons p rest ih =>
    rw [finish_cons, andThen_eq_next] at hf
    obtain ⟨u, hphase, hrest⟩ := hf
    exact ih hrest (h.phase p s u hphase hs)

theorem keeps_runFrame (h : KeptByUpdates P) {f : List Byte} {s t : State} (hr : runFrame f s = .next t) (hs : P s) :
    P t := by
  unfold runFrame at hr
  split at hr
  · obtain ⟨e, rfl⟩ | ⟨todo, hf⟩ := exec_cases hr
    · exact h.raise e _ (h.keeps_takeFrame hs)
    · exact h.keeps_finish hf (h.keeps_takeFrame hs)
  · cases hr
    exact h.raise _ _ (h.keeps_takeFrame hs)

theorem keeps_beginFrame (h : KeptByUpdates P) (f : List Byte) {s : State} (hs : P s) : P (beginFrame f s) := by
  unfold beginFrame
  split
  · unfold begin
    split
    · exact h.raise _ _ (h.keeps_takeFrame hs)
    · exact h.keeps_act _ (h.keeps_takeFrame hs)
  · exact h.raise _ _ (h.keeps_takeFrame hs)

theorem keeps_cmdStep (h : KeptByUpdates P) {k : CmdKind} {todo : List Phase} {s t : State}
    (hc : cmdStep k todo s = .next t) (hs : P s) : P t := by
  cases todo with
  | nil => cases hc; exact h.respondOk s hs
  | cons p rest => exact h.phase p _ t hc (h.keeps_act _ hs)

theorem keeps_rowStep (h : KeptByUpdates P) {m : Nat} {r : Fin 8} {s t : State} (hr : rowStep m r s = .next t)
    (hs : P s) : P t := by
  unfold rowStep at hr
  split at hr
  · cases hr
    exact h.keeps_act _ (h.phase (.send _) s _ rfl hs)
  · cases hr

theorem keeps_ownEffect (h : KeptByUpdates P) {s t : State} (eff : OwnEffect s t) (hs : P s) : P t := by
  cases eff with
  | wait _ _ _ eq => exact eq ▸ hs
  | pass _ eq => exact eq ▸ h.keeps_passStart hs
  | whole f _ _ eq => exact h.keeps_runFrame eq hs
  | phased f _ _ eq => exact eq ▸ h.keeps_beginFrame f hs
  | command k todo _ eq => exact h.keeps_cmdStep eq hs
  | row m r _ eq => exact h.keeps_rowStep eq hs

/-- A step keeps what the updates keep, or it is the reset. -/
theorem keeps_step (h : KeptByUpdates P) {s t : State} (hstep : step s = .next t) (hs : P s) :
    P t ∨ ∃ rest, s.sched = .rst :: rest ∧ t = assertReset { s with sched := rest } := by
  have sched (q : List Move) (a : Nat) : P { s with sched := q, arb := a } :=
    h.world s s.act q a s.rx s.frame s.tickPend hs
  obtain ⟨-, eff⟩ := step_cases hstep
  cases eff with
  | tick rest _ eq => exact .inl (eq ▸ h.keeps_tick (sched rest s.arb))
  | byte b last rest _ _ eq => exact .inl (eq ▸ h.keeps_receive b last (sched rest s.arb))
  | stall rest _ eq => exact .inl (eq ▸ sched rest s.arb)
  | rst rest hq eq => exact .inr ⟨rest, hq, eq⟩
  | own q a _ eff => exact .inl (h.keeps_ownEffect eff (sched q a))

end KeptByUpdates

/-! ## The buffer -/

/-- FB holds exactly FB[1..LEN], and they fit: the buffer's part of the invariant. -/
def BufferExact (s : State) : Prop := s.fb.map Prod.fst = List.range' 1 s.len ∧ s.len ≤ s.cfg.lmax

/-- The buffer's part of the invariant reads FB, LEN and the parameters. -/
theorem bufferExact_congr {s t : State} (h : BufferExact s) (hfb : t.fb = s.fb) (hlen : t.len = s.len)
    (hcfg : t.cfg = s.cfg) : BufferExact t := by
  unfold BufferExact
  rw [hfb, hlen, hcfg]
  exact h

/-- A replacement that answers leaves an exact buffer, whatever stood there (R142). -/
theorem replaceBuffer_bufferExact {content : List Byte} {s t : State} (h : replaceBuffer content s = .next t) :
    BufferExact t := by
  unfold replaceBuffer at h
  split at h
  · rename_i hfits
    cases h
    exact ⟨ofContent_keys content, hfits⟩
  · cases h

/-- Of the phases only P2 of a commit writes the buffer. -/
theorem phaseStep_bufferExact {p : Phase} {s t : State} (h : phaseStep p s = .next t) (hs : BufferExact s) :
    BufferExact t := by
  cases p with
  | replace content => exact replaceBuffer_bufferExact h
  | _ => cases h; exact bufferExact_congr hs (by simp) (by simp) (by simp)

theorem bufferExact_kept : KeptByUpdates BufferExact where
  world _ _ _ _ _ _ _ hs := hs
  passOffset _ hs := bufferExact_congr hs (by simp) (by simp) (by simp)
  phase _ _ _ h hs := phaseStep_bufferExact h hs
  respondOk _ hs := hs
  raise _ _ hs := hs

theorem step_bufferExact {s t : State} (hstep : step s = .next t) (hs : BufferExact s) : BufferExact t := by
  obtain ht | ⟨rest, -, rfl⟩ := bufferExact_kept.keeps_step hstep hs
  · exact ht
  · exact ⟨rfl, Nat.zero_le _⟩

/-- A memory whose indices are 1..n lies within any capacity from n up (R61). -/
theorem within_of_keys {m : Memory} {n cap : Nat} (h : m.map Prod.fst = List.range' 1 n) (hn : n ≤ cap) :
    m.within cap = true := by
  simp only [Memory.within, List.all_eq_true, Bool.and_eq_true, decide_eq_true_eq]
  intro x hx
  have hmem : x.1 ∈ List.range' 1 n := h ▸ List.mem_map_of_mem hx
  rw [List.mem_range'_1] at hmem
  omega

/-- Settles O50: every step keeps the buffer exact, and an exact buffer is canonical. -/
theorem bufferKeepsItsCanonicalForm : Obligations.BufferKeepsItsCanonicalForm := by
  intro s t hinv hstep
  obtain ⟨hkeys, hfits⟩ := step_bufferExact hstep hinv.bufferOk
  exact ⟨wf_of_keys 1 t.len t.fb hkeys, within_of_keys hkeys hfits, by simpa using congrArg List.length hkeys⟩

/-! ## The error flags -/

/-- Setting a flag clears none (R214). -/
theorem errFlag_setErrFlag {e e' : Err} {f : BitVec 6} (h : errFlag e f = true) :
    errFlag e (setErrFlag e' f) = true := by
  unfold errFlag setErrFlag at *
  rw [BitVec.getLsbD_or, h, Bool.true_or]

/-- No phase writes ERRFLAGS. -/
theorem phaseStep_errFlags {p : Phase} {s t : State} (h : phaseStep p s = .next t) : t.errFlags = s.errFlags := by
  cases p with
  | replace content =>
    simp only [phaseStep, replaceBuffer] at h
    split at h <;> cases h
    rfl
  | _ => cases h; simp

theorem errFlag_kept (e : Err) : KeptByUpdates fun s => errFlag e s.errFlags = true where
  world _ _ _ _ _ _ _ hs := hs
  passOffset s hs := by simpa using hs
  phase _ _ _ h hs := by rwa [phaseStep_errFlags h]
  respondOk _ hs := hs
  raise _ _ hs := errFlag_setErrFlag hs

/-- Settles O52: every update but the reset keeps a set flag, and a step without the reset input is no reset. -/
theorem errorFlagsAreSticky : Obligations.ErrorFlagsAreSticky := by
  intro s t e hnr hstep hflag
  obtain ht | ⟨rest, hq, -⟩ := (errFlag_kept e).keeps_step hstep hflag
  · exact ht
  · exact absurd (by simp [hq]) hnr

/-! ## The lock -/

/-- The commands that commit are INIT, CLEAR and WRITE (R141). -/
theorem commits_iff (k : CmdKind) : k.commits = true ↔ k = .init ∨ k = .clear ∨ k = .write := by
  cases k <;> decide

/-- Phases legal from LOCK = 1 begin with P2, P3 or P4 of a committing command (R142). -/
theorem todoLegal_locked {p : Config} {k : CmdKind} {todo : List Phase} (h : todoLegal p k true todo = true) :
    k.commits = true ∧ ∃ rest,
      (∃ content, todo = .replace content :: rest) ∨ todo = .scrollReset :: rest ∨ todo = .unlock :: rest := by
  cases todo with
  | nil => simp [todoLegal] at h
  | cons ph rest =>
    cases ph with
    | replace content =>
      simp only [todoLegal, Bool.and_eq_true] at h
      obtain ⟨⟨-, hk⟩, -⟩ := h
      exact ⟨hk, rest, .inl ⟨content, rfl⟩⟩
    | scrollReset =>
      simp only [todoLegal, Bool.and_eq_true] at h
      obtain ⟨⟨-, hk⟩, -⟩ := h
      exact ⟨hk, rest, .inr (.inl rfl)⟩
    | unlock =>
      simp only [todoLegal, Bool.and_eq_true] at h
      obtain ⟨⟨-, hk⟩, -⟩ := h
      exact ⟨hk, rest, .inr (.inr rfl)⟩
    | _ => simp [todoLegal] at h

/-- Settles O48: with LOCK = 1 the invariant leaves only a command whose phases are legal from LOCK = 1. -/
theorem lockIsHeldOnlyInsideACommit : Obligations.LockIsHeldOnlyInsideACommit := by
  intro s hinv hlock
  have hok := hinv.activityOk
  unfold ActivityOk at hok
  split at hok
  · exact absurd (hlock.symm.trans hok.1) (by decide)
  · exact absurd (hlock.symm.trans hok.1) (by decide)
  · rename_i k todo hact
    obtain ⟨-, -, hlegal, -⟩ := hok
    rw [hlock] at hlegal
    obtain ⟨hk, rest, hnext⟩ := todoLegal_locked hlegal
    refine ⟨k, rest, (commits_iff k).mp hk, ?_⟩
    obtain ⟨content, rfl⟩ | rfl | rfl := hnext
    · exact .inl ⟨content, hact⟩
    · exact .inr (.inl hact)
    · exact .inr (.inr hact)

/-! ## The register widths -/

/-- C is at most 2040: N is one byte (R20). -/
theorem c_le (s : State) : s.c ≤ 2040 := by
  have := s.n.isLt
  unfold State.c
  omega

/-- The buffer of a block the spec describes has at most 2040 bytes (R6). -/
theorem valid_lmax_le {p : Config} (h : p.valid = true) : p.lmax ≤ 2040 := by
  simp only [Config.valid, Bool.and_eq_true, decide_eq_true_eq] at h
  unfold Config.lmax
  omega

theorem dir_toInt_bounds (d : Dir) : -1 ≤ d.toInt ∧ d.toInt ≤ 1 := by cases d <;> decide

/-- The effective offset is 0 or OFF (R160), so it keeps any bounds around 0 that OFF keeps. -/
theorem effOffset_bounds {s : State} {lo hi : Int} (hlo : lo ≤ 0) (hhi : 0 ≤ hi) (hoff : lo ≤ s.off ∧ s.off ≤ hi) :
    lo ≤ effOffset s ∧ effOffset s ≤ hi := by
  unfold effOffset
  split
  · exact ⟨hlo, hhi⟩
  · exact hoff

/-- The index of module `m`, one of 1..N, lies in E + 1..E + C (R63). -/
theorem scanIndex_bounds (s : State) {m : Nat} (r : Fin 8) (h1 : 1 ≤ m) (hn : m ≤ s.n.toNat) :
    s.e + 1 ≤ scanIndex s.e m r ∧ scanIndex s.e m r ≤ s.e + s.c := by
  have := r.isLt
  unfold scanIndex State.c
  omega

/-- Outside a command the registers are settled. -/
theorem Inv.settled {s : State} (h : Inv s) (hact : ∀ k todo, s.act ≠ .cmd k todo) : Settled s := by
  have hok := h.activityOk
  unfold ActivityOk at hok
  split at hok
  · obtain ⟨-, hsettled⟩ := hok
    exact hsettled
  · obtain ⟨-, hsettled, -⟩ := hok
    exact hsettled
  · rename_i k todo hcmd
    exact absurd hcmd (hact k todo)

/-- In a pass the position is a module's, and E is the effective offset (R33). -/
theorem Inv.scanning {s : State} (h : Inv s) {m : Nat} {r : Fin 8} (hact : s.act = .scan m r) :
    1 ≤ m ∧ m ≤ s.n.toNat ∧ s.e = effOffset s := by
  have hok := h.activityOk
  simp only [ActivityOk, hact] at hok
  obtain ⟨-, -, -, hm⟩ := hok
  exact hm

/-- Settles O49: N is one byte and LEN is within the capacity; the bounds of OFF follow, and from them the others. -/
theorem registerWidthsSuffice : Obligations.RegisterWidthsSuffice := by
  intro s hinv hact
  have hc := c_le s
  obtain ⟨-, hfits⟩ := hinv.bufferOk
  have hlen : s.len ≤ 2040 := hfits.trans (valid_lmax_le hinv.cfgValid)
  have hoff : -2040 ≤ s.off ∧ s.off ≤ 2040 := by
    have := (hinv.settled hact).offBounds
    omega
  have hdir := dir_toInt_bounds s.dir
  refine ⟨hc, hlen, hoff.1, hoff.2, by omega, by omega, fun m r hscan => ?_⟩
  obtain ⟨h1, hn, he⟩ := hinv.scanning hscan
  have hE : -2040 ≤ s.e ∧ s.e ≤ 2040 := he ▸ effOffset_bounds (by decide) (by decide) hoff
  have hidx := scanIndex_bounds s r h1 hn
  exact ⟨hE.1, hE.2, by omega, by omega⟩

/-! ## The pins -/

theorem cmdReady_iff (s : State) : cmdReady s = true ↔ s.frame = none ∧ (s.act = .idle ∨ s.rx ≠ []) := by
  simp [cmdReady]

/-- Settles O57: each pin is its register by definition, and `cmd_ready` is the condition of R91. -/
theorem pinsAreCopies : Obligations.PinsAreCopies := by
  intro s
  exact ⟨rfl, rfl, decide_eq_true_iff, rfl, rfl, rfl, cmdReady_iff s⟩

end Sys2Proof.Machine
end

section
/-! Proofs for the statements about the memory, the output trace and the bus: what a busy block can do in one step,
which words an activity still sends, and what the chips show after a pass. -/

namespace Sys2Proof.Machine

open Sys2Proof

/-! ## The frame buffer's read -/

theorem fbRead_inside {s : State} {idx : Int} (h1 : 1 ≤ idx) (hlen : idx ≤ s.len) :
    fbRead s idx = s.fb.read idx.toNat :=
  if_pos ⟨h1, hlen⟩

theorem fbRead_outside {s : State} {idx : Int} (h : idx < 1 ∨ (s.len : Int) < idx) : fbRead s idx = some 0 :=
  if_neg (by omega)

/-- Settles O23: the two branches of the read. -/
theorem readFollowsTheRule : Obligations.ReadFollowsTheRule :=
  fun _ _ => ⟨fbRead_inside, fbRead_outside⟩

/-! ## What a busy block can do -/

/-- What one step without the reset input can do where an activity is in progress (R46, R71, R226). -/
inductive BusyEffect (s t : State) : Prop where
  /-- only the world around the activity changes: the schedule, the port, the choice counter, and by a tick TICKPEND -/
  | world (q : List Move) (b : Nat) (r : List Byte) (f : Option (List Byte)) (tp : Bool)
      (pend : tp = s.tickPend ∨ s.sched.head? = some .tick ∧ tp = true)
      (eq : t = { s with sched := q, arb := b, rx := r, frame := f, tickPend := tp })
  /-- the command goes on -/
  | command (q : List Move) (b : Nat) (k : CmdKind) (todo : List Phase) (act : s.act = .cmd k todo)
      (eq : cmdStep k todo { s with sched := q, arb := b } = .next t)
  /-- the pass goes on -/
  | row (q : List Move) (b : Nat) (m : Nat) (r : Fin 8) (act : s.act = .scan m r)
      (eq : rowStep m r { s with sched := q, arb := b } = .next t)

theorem not_notReset {s : State} {rest : List Move} (hq : s.sched = .rst :: rest) : ¬ notReset s :=
  fun hnr => hnr (by rw [hq]; rfl)

theorem tick_eq (s : State) : tick s = { s with tickPend := s.inited || s.tickPend } := by
  unfold tick
  split
  · rename_i hi
    rw [hi, Bool.true_or]
  · rename_i hi
    have hsame : (s.inited || s.tickPend) = s.tickPend := by simp [hi]
    rw [hsame]

theorem receive_eq (b : Byte) (last : Bool) (s : State) :
    receive b last s = { s with rx := (receive b last s).rx, frame := (receive b last s).frame } := by
  unfold receive
  cases last <;> rfl

/-- Nothing starts in a busy block: its own step goes on with the activity (R75, R226). -/
theorem busyEffect_of_own {s t : State} {q : List Move} {b : Nat} (hbusy : s.act ≠ .idle)
    (eff : OwnEffect { s with sched := q, arb := b } t) : BusyEffect s t := by
  cases eff with
  | wait hact => exact absurd hact hbusy
  | pass ready =>
    obtain ⟨hact, -⟩ := (passReady_iff _).mp ready
    exact absurd hact hbusy
  | whole _ hact => exact absurd hact hbusy
  | phased _ hact => exact absurd hact hbusy
  | command k todo hact eq => exact .command q b k todo hact eq
  | row m r hact eq => exact .row q b m r hact eq

/-- Everything a step without the reset input can do where an activity is in progress. -/
theorem step_busy_cases {s t : State} (hbusy : s.act ≠ .idle) (hnr : notReset s) (hstep : step s = .next t) :
    BusyEffect s t := by
  obtain ⟨-, eff⟩ := step_cases hstep
  cases eff with
  | tick rest hq eq =>
    refine .world rest s.arb s.rx s.frame (s.inited || s.tickPend) ?_ (eq.trans (tick_eq _))
    cases s.inited
    · exact .inl rfl
    · exact .inr ⟨by rw [hq]; rfl, rfl⟩
  | byte b last rest _ _ eq => exact .world rest s.arb _ _ s.tickPend (.inl rfl) (eq.trans (receive_eq b last _))
  | stall rest _ eq => exact .world rest s.arb s.rx s.frame s.tickPend (.inl rfl) eq
  | rst rest hq => exact absurd hnr (not_notReset hq)
  | own q b _ eff => exact busyEffect_of_own hbusy eff

/-- Everything a row step can do (R180). -/
theorem rowStep_next {m : Nat} {r : Fin 8} {s t : State} (h : rowStep m r s = .next t) :
    ∃ d, fbRead s (scanIndex s.e m r) = some d ∧
      t = { emit { m := m, reg := s.cfg.regRow.get r, d := d } s with act := nextScan s.n.toNat m r } := by
  unfold rowStep at h
  split at h
  · rename_i d hd
    cases h
    exact ⟨d, hd, rfl⟩
  · cases h

/-- Settles O35: a step in a pass changes the world around it or is one row step, which writes the trace and ACT. -/
theorem passSeesOneVersionOfTheBuffer : Obligations.PassSeesOneVersionOfTheBuffer := by
  intro s t m r hact hnr hstep
  cases step_busy_cases (by simp [hact]) hnr hstep with
  | world q b r f tp pend eq => subst eq; simpa using pend
  | command _ _ k todo hcmd => exact absurd (hact.symm.trans hcmd) (by simp)
  | row q b m' r' hscan hrow =>
    cases hact.symm.trans hscan
    obtain ⟨d, -, rfl⟩ := rowStep_next hrow
    simp

/-! ## The words an activity still has to send -/

/-- The word a phase sends, if it is an emission of a broadcast (R195). -/
def Phase.word : Phase → Option SendWord
  | .send w => some w
  | _ => none

/-- What a phase writes of the outputs and the activity: it sends its word and nothing else. -/
theorem phaseStep_outputs {p : Phase} {s t : State} (h : phaseStep p s = .next t) :
    t.trace = s.trace ++ p.word.toList ∧ t.responses = s.responses ∧ t.act = s.act := by
  cases p with
  | replace content =>
    simp only [phaseStep, replaceBuffer] at h
    split at h <;> cases h
    simp [Phase.word]
  | _ => cases h; simp [Phase.word]

theorem pending_idle {s : State} (h : s.act = .idle) : pending s = some [] := by
  simp only [pending, h]

/-- What a command still has to send are the words of its phases to do. -/
theorem pending_cmd {s : State} {k : CmdKind} {todo : List Phase} (h : s.act = .cmd k todo) :
    pending s = some (todo.filterMap Phase.word) := by
  simp only [pending, h]
  rfl

theorem pending_scan {s : State} {m : Nat} {r : Fin 8} (h : s.act = .scan m r) :
    pending s = rowEvents s ((passPositions s.n.toNat).drop ((m - 1) * 8 + r.val)) := by
  simp only [pending, h]

/-- The words to come depend on ACT, N and what a pass reads only, not on the world around the activity. -/
theorem pending_congr {s t : State} (hact : t.act = s.act) (hn : t.n = s.n) (hfb : t.fb = s.fb) (hlen : t.len = s.len)
    (he : t.e = s.e) (hcfg : t.cfg = s.cfg) : pending t = pending s := by
  cases h : s.act with
  | idle => rw [pending_idle h, pending_idle (hact.trans h)]
  | cmd k todo => rw [pending_cmd h, pending_cmd (hact.trans h)]
  | scan m r => rw [pending_scan h, pending_scan (hact.trans h), hn, rowEvents_congr hfb hlen he hcfg]

/-- Where FB holds exactly FB[1..LEN], the words to come are known. -/
theorem pending_total {s : State} (h : s.fb.map Prod.fst = List.range' 1 s.len) : ∃ p, pending s = some p := by
  cases hact : s.act with
  | idle => exact ⟨_, pending_idle hact⟩
  | cmd k todo => exact ⟨_, pending_cmd hact⟩
  | scan m r =>
    rw [pending_scan hact]
    exact rowEvents_total s h _

/-- The positions of a pass from module `m`, row `r + 1` on: that one, then the ones after it (R179). -/
theorem passPositions_drop_scan {n m : Nat} (r : Fin 8) (h1 : 1 ≤ m) (hn : m ≤ n) :
    (passPositions n).drop ((m - 1) * 8 + r.val)
      = (m, r) :: (passPositions n).drop ((m - 1) * 8 + r.val + 1) := by
  have hr := r.isLt
  rw [passPositions_drop n _ (by omega)]
  congr 2
  · omega
  · ext
    simp only
    omega

/-- After the row step at a position what is to come are the events of the positions after it (R180, R181). -/
theorem pending_nextScan {t : State} {m : Nat} {r : Fin 8} (h1 : 1 ≤ m) (hn : m ≤ t.n.toNat)
    (hact : t.act = nextScan t.n.toNat m r) :
    pending t = rowEvents t ((passPositions t.n.toNat).drop ((m - 1) * 8 + r.val + 1)) := by
  have hr := r.isLt
  unfold nextScan at hact
  split at hact
  · rw [pending_scan hact]
    rfl
  · split at hact
    · rw [pending_scan hact]
      congr 2
      simp only [Fin.val_zero]
      omega
    · have hend : (passPositions t.n.toNat).length ≤ (m - 1) * 8 + r.val + 1 := by
        rw [length_passPositions]
        omega
      rw [pending_idle hact, List.drop_eq_nil_of_le hend]
      rfl

/-- The words sent so far, then the words to come, are the same list in both states. -/
def SameWords (s t : State) : Prop :=
  ∃ p q, pending s = some p ∧ pending t = some q ∧ t.trace ++ q = s.trace ++ p

theorem cmdStep_sameWords {k : CmdKind} {todo : List Phase} {s t : State} (hact : s.act = .cmd k todo)
    (h : cmdStep k todo s = .next t) : SameWords s t := by
  cases todo with
  | nil =>
    cases h
    exact ⟨[], [], pending_cmd hact, pending_idle rfl, rfl⟩
  | cons p rest =>
    obtain ⟨htrace, -, hact'⟩ := phaseStep_outputs h
    refine ⟨_, _, pending_cmd hact, pending_cmd hact', ?_⟩
    rw [htrace]
    cases hw : p.word <;> simp [hw]

theorem rowStep_sameWords {m : Nat} {r : Fin 8} {s t : State} (hact : s.act = .scan m r) (h1 : 1 ≤ m)
    (hn : m ≤ s.n.toNat) (hbuf : s.fb.map Prod.fst = List.range' 1 s.len) (h : rowStep m r s = .next t) :
    SameWords s t := by
  obtain ⟨d, hd, ht⟩ := rowStep_next h
  obtain ⟨q, hq⟩ := rowEvents_total s hbuf ((passPositions s.n.toNat).drop ((m - 1) * 8 + r.val + 1))
  refine ⟨{ m := m, reg := s.cfg.regRow.get r, d := d } :: q, q, ?_, ?_, ?_⟩
  · rw [pending_scan hact, passPositions_drop_scan r h1 hn]
    simp only [rowEvents, hd, hq]
  · have htn : t.n = s.n := by simp [ht]
    rw [pending_nextScan (t := t) (r := r) h1 (htn ▸ hn) (by simp [ht]), htn]
    exact (rowEvents_congr (by simp [ht]) (by simp [ht]) (by simp [ht]) (by simp [ht]) _).trans hq
  · simp [ht]

/-- Settles O36: the world around an activity changes no word, a phase sends the first of the words to come or none,
and a row step sends the event of its position. -/
theorem activitySendsExactlyItsWords : Obligations.ActivitySendsExactlyItsWords := by
  intro s t hinv hbusy hnr hstep
  obtain ⟨hkeys, -⟩ := hinv.bufferOk
  have around (q : List Move) (b : Nat) : pending { s with sched := q, arb := b } = pending s :=
    pending_congr rfl rfl rfl rfl rfl rfl
  cases step_busy_cases hbusy hnr hstep with
  | world q b r f tp _ eq =>
    obtain ⟨p, hp⟩ := pending_total hkeys
    subst eq
    exact ⟨p, p, hp, hp ▸ pending_congr rfl rfl rfl rfl rfl rfl, rfl⟩
  | command q b k todo hact eq =>
    rw [← around q b]
    exact cmdStep_sameWords hact eq
  | row q b m r hact eq =>
    obtain ⟨h1, hn, -⟩ := hinv.scanning hact
    rw [← around q b]
    exact rowStep_sameWords hact h1 hn hkeys eq

/-! ## The outputs only grow -/

/-- Every update but the reset continues the trace at its end (R69). -/
theorem trace_kept (tr : List SendWord) : KeptByUpdates fun s => tr <+: s.trace where
  world _ _ _ _ _ _ _ hs := hs
  passOffset s hs := by simpa using hs
  phase _ _ _ h hs := by
    obtain ⟨htrace, -, -⟩ := phaseStep_outputs h
    exact htrace ▸ hs.trans (List.prefix_append _ _)
  respondOk _ hs := hs
  raise _ _ hs := hs

/-- A command that ends without an error answers OK, once (R91). -/
theorem finish_responses {todo : List Phase} {s t : State} (h : finish todo s = .next t) :
    t.responses = s.responses ++ [.ok] := by
  induction todo generalizing s with
  | nil => cases h; rfl
  | cons p rest ih =>
    rw [finish_cons, andThen_eq_next] at h
    obtain ⟨u, hphase, hrest⟩ := h
    obtain ⟨-, hresp, -⟩ := phaseStep_outputs hphase
    rw [ih hrest, hresp]

/-- At most one code is answered between the two states. -/
def AnswersAtMostOnce (s t : State) : Prop :=
  t.responses = s.responses ∨ ∃ c, t.responses = s.responses ++ [c]

theorem runFrame_answers {f : List Byte} {s t : State} (h : runFrame f s = .next t) : AnswersAtMostOnce s t := by
  unfold runFrame at h
  split at h
  · obtain ⟨e, rfl⟩ | ⟨todo, hf⟩ := exec_cases h
    · exact .inr ⟨.error e, rfl⟩
    · exact .inr ⟨.ok, finish_responses (s := takeFrame s) hf⟩
  · cases h
    exact .inr ⟨_, rfl⟩

theorem beginFrame_answers (f : List Byte) (s : State) : AnswersAtMostOnce s (beginFrame f s) := by
  unfold beginFrame
  split
  · unfold begin
    split
    · exact .inr ⟨_, rfl⟩
    · exact .inl rfl
  · exact .inr ⟨_, rfl⟩

theorem cmdStep_answers {k : CmdKind} {todo : List Phase} {s t : State} (h : cmdStep k todo s = .next t) :
    AnswersAtMostOnce s t := by
  cases todo with
  | nil => cases h; exact .inr ⟨.ok, rfl⟩
  | cons p rest =>
    obtain ⟨-, hresp, -⟩ := phaseStep_outputs h
    exact .inl hresp

theorem ownEffect_answers {s t : State} (eff : OwnEffect s t) : AnswersAtMostOnce s t := by
  cases eff with
  | wait _ _ _ eq => exact .inl (by rw [eq])
  | pass _ eq => exact .inl (by simp [eq])
  | whole f _ _ eq => exact runFrame_answers eq
  | phased f _ _ eq => exact eq ▸ beginFrame_answers f s
  | command k todo _ eq => exact cmdStep_answers eq
  | row m r _ eq =>
    obtain ⟨d, -, rfl⟩ := rowStep_next eq
    exact .inl rfl

theorem step_answers {s t : State} (hnr : notReset s) (hstep : step s = .next t) : AnswersAtMostOnce s t := by
  obtain ⟨-, eff⟩ := step_cases hstep
  cases eff with
  | tick _ _ eq => exact .inl (by simp [eq])
  | byte _ _ _ _ _ eq => exact .inl (by simp [eq])
  | stall _ _ eq => exact .inl (by rw [eq])
  | rst rest hq => exact absurd hnr (not_notReset hq)
  | own q b _ eff => exact ownEffect_answers (s := { s with sched := q, arb := b }) eff

/-- Settles O53: every update but the reset leaves the old trace at the front, and no operation answers twice. -/
theorem outputsOnlyGrow : Obligations.OutputsOnlyGrow := by
  refine ⟨fun p => ⟨rfl, rfl⟩, fun s t hnr hstep => ⟨?_, step_answers hnr hstep⟩⟩
  obtain ⟨ws, hws⟩ | ⟨rest, hq, -⟩ := (trace_kept s.trace).keeps_step hstep (List.prefix_refl _)
  · exact ⟨ws, hws.symm⟩
  · exact absurd hnr (not_notReset hq)

/-! ## The chips -/

/-- The no-op changes no register (R73). -/
theorem chipLatch_noopWord (reg : Byte) (old : Option Byte) : chipLatch reg old noopWord = old := by
  rw [noopWord, chipLatch_busWord]
  exact if_neg fun ⟨hne, _⟩ => hne rfl

/-- One more transaction sets the register it names of the chip it addresses, and no other (R73). -/
theorem chipRegister_concat (trace : List SendWord) (w : SendWord) (m : Nat) (reg : Byte) (hw : w.reg ≠ 0) :
    chipRegister (trace ++ [w]) m reg = if m = w.m ∧ reg = w.reg then some w.d else chipRegister trace m reg := by
  simp only [chipRegister, List.foldl_append, List.foldl_cons, List.foldl_nil, wordFor]
  by_cases hm : m = w.m
  · simp only [hm, if_true, true_and, chipLatch_busWord, ne_eq, hw, not_false_eq_true, eq_comm (a := w.reg)]
  · simp [hm, chipLatch_noopWord]

/-- Settles O56: the words of the transaction one by one, and the chip's latch of each. -/
theorem transactionReachesOneChip : Obligations.TransactionReachesOneChip := by
  intro n w trace
  refine ⟨by simp [latchedWords], fun j hj => ?_, fun hw m reg => chipRegister_concat trace w m reg hw⟩
  simp only [latchedWords, List.getElem?_map, List.getElem?_range hj, Option.map_some]
  rfl

/-- Where some word of `ws` names a register and every word that names it carries `d`, the register holds `d` after
them, whatever came before. -/
theorem chipRegister_append {ws : List SendWord} {m : Nat} {reg d : Byte} (trace : List SendWord)
    (hws : ∀ w ∈ ws, w.reg ≠ 0) (hsome : ∃ w ∈ ws, m = w.m ∧ reg = w.reg)
    (hall : ∀ w ∈ ws, m = w.m ∧ reg = w.reg → w.d = d) : chipRegister (trace ++ ws) m reg = some d := by
  induction ws using List.reverseRecOn with
  | nil => simp at hsome
  | append_singleton ws w ih =>
    rw [← List.append_assoc, chipRegister_concat _ _ _ _ (hws w (by simp))]
    split
    · rename_i hhit
      rw [hall w (by simp) hhit]
    · rename_i hmiss
      refine ih (fun v hv => hws v (by simp [hv])) ?_ (fun v hv => hall v (by simp [hv]))
      obtain ⟨v, hv, hhit⟩ := hsome
      obtain hv | rfl : v ∈ ws ∨ v = w := by simpa using hv
      · exact ⟨v, hv, hhit⟩
      · exact absurd hhit hmiss

/-- The positions of a pass are the rows of the modules 1..N (R179). -/
theorem mem_passPositions {n m : Nat} {r : Fin 8} : (m, r) ∈ passPositions n ↔ 1 ≤ m ∧ m ≤ n := by
  simp only [passPositions, List.mem_flatMap, List.mem_range, List.mem_map, List.mem_finRange, true_and, Prod.mk.injEq]
  constructor
  · rintro ⟨j, hj, -, rfl, -⟩
    omega
  · rintro ⟨h1, hn⟩
    exact ⟨m - 1, by omega, r, by omega, rfl⟩

/-- Every position of a pass has its event, with the byte read there (R180). -/
theorem rowEvents_of_position {s : State} {ps : List (Nat × Fin 8)} {ws : List SendWord} {p : Nat × Fin 8}
    (h : rowEvents s ps = some ws) (hp : p ∈ ps) :
    ∃ d, fbRead s (scanIndex s.e p.1 p.2) = some d ∧ { m := p.1, reg := s.cfg.regRow.get p.2, d := d } ∈ ws := by
  obtain ⟨k, hk⟩ := List.getElem?_of_mem hp
  obtain ⟨-, hget⟩ := rowEvents_get h
  obtain ⟨d, hd, hw⟩ := hget k p hk
  exact ⟨d, hd, List.mem_of_getElem? hw⟩

/-- Every event of a pass is that of a position, with the byte read there (R180). -/
theorem position_of_rowEvents {s : State} {ps : List (Nat × Fin 8)} {ws : List SendWord} {w : SendWord}
    (h : rowEvents s ps = some ws) (hw : w ∈ ws) :
    ∃ p ∈ ps, fbRead s (scanIndex s.e p.1 p.2) = some w.d ∧ w.m = p.1 ∧ w.reg = s.cfg.regRow.get p.2 := by
  obtain ⟨k, hk⟩ := List.getElem?_of_mem hw
  obtain ⟨hlen, hget⟩ := rowEvents_get h
  obtain ⟨hlt, -⟩ := List.getElem?_eq_some_iff.mp hk
  have hp := List.getElem?_eq_getElem (hlen ▸ hlt)
  obtain ⟨d, hd, hwd⟩ := hget k _ hp
  cases hk.symm.trans hwd
  exact ⟨_, List.mem_of_getElem? hp, hd, rfl, rfl⟩

/-- The row registers of valid parameters are distinct (R196). -/
theorem valid_regRow_injective {p : Config} (h : p.valid = true) : Function.Injective p.regRow.get := by
  intro i j hij
  simp only [Config.valid, Bool.and_eq_true, decide_eq_true_eq] at h
  obtain ⟨⟨⟨-, hnodup⟩, -⟩, -⟩ := h
  apply Fin.ext
  refine (List.getElem?_inj (by simp) hnodup).mp ?_
  rw [Eight.toList_getElem?, Eight.toList_getElem?, hij]

/-- Settles O37: the one word of the pass for a module and a row register carries the window's byte. -/
theorem passShowsTheWindow : Obligations.PassShowsTheWindow := by
  intro s t m r hvalid hpass h1 hn
  obtain ⟨u, ws, hu, hws, rfl⟩ := wholePass_cases hpass
  have hcfg : u.cfg = s.cfg := by simp [hu]
  have hpos : (m, r) ∈ passPositions u.n.toNat := mem_passPositions.mpr ⟨h1, by simpa [hu] using hn⟩
  obtain ⟨d, hd, hmem⟩ := rowEvents_of_position hws hpos
  have hshown : chipRegister (u.trace ++ ws) m (u.cfg.regRow.get r) = some d := by
    refine chipRegister_append u.trace ?_ ⟨_, hmem, rfl, rfl⟩ ?_
    · intro w hw
      obtain ⟨p, -, -, -, hreg⟩ := position_of_rowEvents hws hw
      rw [hreg, hcfg]
      exact valid_not_noop hvalid (row_mem_registers _ _)
    · rintro w hw ⟨rfl, hreg⟩
      obtain ⟨⟨m', r'⟩, -, hd', hm', hreg'⟩ := position_of_rowEvents hws hw
      have hr : r = r' := valid_regRow_injective (hcfg ▸ hvalid) (hreg.trans hreg')
      subst hr
      rw [hm'] at hd
      exact Option.some.inj (hd'.symm.trans hd)
  rw [hcfg] at hshown
  exact hshown.trans (hd.symm.trans (fbRead_congr rfl rfl _).symm)

/-! ## Either operation may start -/

theorem step_of_run {s : State} {c : Choice} {rest : List Move} (hvalid : s.cfg.valid = true)
    (hq : s.sched = .run c :: rest) : step s = ownStep c { s with sched := rest } := by
  simp only [step, hvalid, if_true, scheduledStep, hq, applyMove]

theorem step_of_quiet {s : State} (hvalid : s.cfg.valid = true) (hq : s.sched = []) : step s = freeStep s := by
  simp only [step, hvalid, if_true, scheduledStep, hq]

/-- The command at the port of an idle block starts where the choice asks for it whole. -/
theorem ownStep_command {s : State} {f : List Byte} (hact : s.act = .idle) (hframe : s.frame = some f) :
    ownStep .command s = runFrame f s := by
  simp [ownStep, hact, idleStep, hframe, startCommand]

/-- The pass starts where it can and the choice asks for it. -/
theorem ownStep_pass {s : State} (hready : passReady s = true) : ownStep .pass s = .next (passStart s) := by
  obtain ⟨hact, -⟩ := (passReady_iff s).mp hready
  cases hframe : s.frame <;> simp [ownStep, hact, idleStep, hframe, hready]

/-- Settles O41: the move names the operation, and with no move the free value does. -/
theorem eitherOperationMayStart : Obligations.EitherOperationMayStart := by
  intro s f hvalid hact hlock htick hframe
  have hready (q : List Move) (b : Nat) : passReady { s with sched := q, arb := b } = true :=
    (passReady_iff _).mpr ⟨hact, hlock, htick⟩
  refine ⟨fun rest hq => ?_, fun rest hq => ?_, fun hq => ?_⟩
  · rw [step_of_run hvalid hq]
    exact ownStep_command hact hframe
  · rw [step_of_run hvalid hq]
    exact ownStep_pass (hready rest s.arb)
  · have hboth : contested s = true := by simp [contested, hready s.sched s.arb, hframe]
    rw [step_of_quiet hvalid hq, freeStep, if_pos hboth]
    cases Config.commandFirst s.arb
    · exact .inr (ownStep_pass (hready s.sched (s.arb + 1)))
    · exact .inl (ownStep_command hact hframe)

end Sys2Proof.Machine
end

section
/-! Proofs for the statements about frames and the text form: what the decoder accepts, what it rejects, and how the
port runs either. Each operand decoder is inverted once; `decode` only dispatches to them. -/

namespace Sys2Proof

/-! ## What the decoder accepts -/

/-- The frame is an INIT of 3 to 5 bytes which the trailing defaults 1, 0, 0 complete to the encoding of `i` (R95). -/
def CompletedByDefaults (f : List Byte) (i : Instr) : Prop :=
  (∃ n p ii mm dd, i = .init (some n) (some p) ii mm dd) ∧ 3 ≤ f.length ∧ f.length < 6 ∧
    f ++ ([1, 0, 0] : List Byte).drop (f.length - 3) = encode i

/-- The frame stands for the well-formed command `i`: it is its encoding, but for the absent trailing bytes of INIT. -/
def StandsFor (f : List Byte) (i : Instr) : Prop :=
  i.wellFormed = true ∧ (f = encode i ∨ CompletedByDefaults f i)

theorem recordsOk_iff (records : List (List Byte)) :
    Instr.recordsOk records = true ↔ records.length ≤ 255 ∧ ∀ r ∈ records, r.length ≤ 255 := by
  simp [Instr.recordsOk]

theorem standsFor_of_decodeInit {ops : List Byte} {i : Instr} (h : decodeInit ops = .ok i) :
    StandsFor (0x10 :: ops) i := by
  match ops with
  | [] => cases h; exact ⟨rfl, .inl rfl⟩
  | [n] => cases h; exact ⟨rfl, .inl rfl⟩
  | [n, p] => cases h; exact ⟨rfl, .inr ⟨⟨n, p, 1, .off, 0, rfl⟩, by simp, by simp, rfl⟩⟩
  | [n, p, ii] => cases h; exact ⟨rfl, .inr ⟨⟨n, p, ii, .off, 0, rfl⟩, by simp, by simp, rfl⟩⟩
  | [n, p, ii, m] =>
    cases hmode : modeOf m with
    | none => simp [decodeInit, hmode] at h
    | some mm =>
      obtain rfl := modeOf_eq_some hmode
      simp only [decodeInit, hmode, Except.ok.injEq] at h
      subst h
      exact ⟨rfl, .inr ⟨⟨n, p, ii, mm, 0, rfl⟩, by simp, by simp, rfl⟩⟩
  | [n, p, ii, m, d] =>
    cases hmode : modeOf m with
    | none => simp [decodeInit, hmode] at h
    | some mm =>
      obtain rfl := modeOf_eq_some hmode
      simp only [decodeInit, hmode, Except.ok.injEq] at h
      subst h
      exact ⟨rfl, .inl rfl⟩
  | _ :: _ :: _ :: _ :: _ :: _ :: _ => cases h

theorem standsFor_of_decodeSetscroll {ops : List Byte} {i : Instr} (h : decodeSetscroll ops = .ok i) :
    StandsFor (0x20 :: ops) i := by
  match ops with
  | [m, d] =>
    cases hmode : modeOf m with
    | none => simp [decodeSetscroll, hmode] at h
    | some mm =>
      obtain rfl := modeOf_eq_some hmode
      simp only [decodeSetscroll, hmode, Except.ok.injEq] at h
      subst h
      exact ⟨rfl, .inl rfl⟩
  | [] => cases h
  | [_] => cases h
  | _ :: _ :: _ :: _ => cases h

/-- What WRITE's operand decoder accepts: a selector that is not reserved, and records that exactly fill the frame. -/
theorem decodeWrite_eq_ok {b0 : Byte} {ops : List Byte} {i : Instr} (h : decodeWrite b0 ops = .ok i) :
    ∃ rot g rest records, rotOf b0 = some rot ∧ ops = g :: rest ∧ parseRecords g.toNat rest = some records ∧
      i = .write rot (b0.getLsbD 2) records := by
  cases hrot : rotOf b0 with
  | none => simp [decodeWrite, hrot] at h
  | some rot =>
    cases ops with
    | nil => simp [decodeWrite, hrot] at h
    | cons g rest =>
      cases hrecords : parseRecords g.toNat rest with
      | none => simp [decodeWrite, hrot, hrecords] at h
      | some records =>
        simp only [decodeWrite, hrot, hrecords, Except.ok.injEq] at h
        exact ⟨rot, g, rest, records, rfl, rfl, hrecords, h.symm⟩

theorem standsFor_of_decodeWrite {b0 : Byte} {ops : List Byte} {i : Instr} (hrow : b0 &&& 0xF8 = 0x40)
    (h : decodeWrite b0 ops = .ok i) : StandsFor (b0 :: ops) i := by
  obtain ⟨rot, g, rest, records, hrot, rfl, hparse, rfl⟩ := decodeWrite_eq_ok h
  obtain ⟨hcount, hlengths, rfl⟩ := parseRecords_eq_some hparse
  have hbyte : g = BitVec.ofNat 8 records.length := by rw [hcount, BitVec.ofNat_toNat, BitVec.setWidth_eq]
  refine ⟨(recordsOk_iff records).mpr ⟨by omega, hlengths⟩, .inl ?_⟩
  rw [encode, ← eq_writeOpcode b0 rot hrow hrot, ← hbyte]

theorem standsFor_of_decode {f : List Byte} {i : Instr} (h : decode f = .ok i) : StandsFor f i := by
  cases f with
  | nil => cases h
  | cons b0 ops =>
    simp only [decode] at h
    split_ifs at h with hinit hsetscroll hclear hwrite hsetint hsetpwr
    · exact hinit ▸ standsFor_of_decodeInit h
    · exact hsetscroll ▸ standsFor_of_decodeSetscroll h
    · subst hclear
      split at h <;> cases h
      exact ⟨rfl, .inl rfl⟩
    · exact standsFor_of_decodeWrite hwrite h
    · subst hsetint
      split at h <;> cases h
      exact ⟨rfl, .inl rfl⟩
    · split at h <;> cases h
      exact ⟨rfl, .inl (congrArg ([·]) (eq_setpwrOpcode b0 hsetpwr))⟩

/-- Settles O2: each operand decoder accepts only what stands for the command it answers. -/
theorem decodedFrameIsTheEncoding : Obligations.DecodedFrameIsTheEncoding :=
  fun _ _ => standsFor_of_decode

/-! ## What the decoder rejects -/

/-- The decoder rejects the frame, for whichever reason. -/
def Rejected (f : List Byte) : Prop := ∃ r, decode f = .error r

theorem modeOf_reserved {m : Byte} (h : 4 ≤ m.toNat) : modeOf m = none := by
  cases hmode : modeOf m with
  | none => rfl
  | some mm =>
    have := modeByte_lt mm
    rw [← modeOf_eq_some hmode] at this
    omega

theorem rotOf_reserved {b0 : Byte} (h : b0 &&& 0x03 = 0x03) : rotOf b0 = none := by
  rw [rotOf, h]
  rfl

theorem decode_writeRow {b0 : Byte} (h : b0 &&& 0xF8 = 0x40) (ops : List Byte) :
    decode (b0 :: ops) = decodeWrite b0 ops := by
  have hrows : b0 ≠ 0x10 ∧ b0 ≠ 0x20 ∧ b0 ≠ 0x30 := by
    refine ⟨?_, ?_, ?_⟩ <;> rintro rfl <;> exact absurd h (by decide)
  obtain ⟨h1, h2, h3⟩ := hrows
  simp only [decode, h1, h2, h3, h, if_true, if_false]

theorem rejected_of_unknownOpcode {b0 : Byte} (ops : List Byte) (h : b0 ≠ 0x10 ∧ b0 ≠ 0x20 ∧ b0 ≠ 0x30 ∧
    b0 &&& 0xF8 ≠ 0x40 ∧ b0 ≠ 0x50 ∧ b0 &&& 0xFE ≠ 0x60) : Rejected (b0 :: ops) := by
  obtain ⟨h1, h2, h3, h4, h5, h6⟩ := h
  exact ⟨.unknownOpcode, by simp only [decode, h1, h2, h3, h4, h5, h6, if_false]⟩

theorem rejected_init_of_length {ops : List Byte} (h : 5 < ops.length) : Rejected (0x10 :: ops) :=
  match ops, h with
  | _ :: _ :: _ :: _ :: _ :: _ :: _, _ => ⟨.badLength, rfl⟩

theorem rejected_init_of_mode {ops : List Byte} {m : Byte} (hm : ops[3]? = some m) (h : 4 ≤ m.toNat) :
    Rejected (0x10 :: ops) := by
  have hmode := modeOf_reserved h
  match ops, hm with
  | [_, _, _, _], rfl => exact ⟨.reservedMode, by simp [decode, decodeInit, hmode]⟩
  | [_, _, _, _, _], rfl => exact ⟨.reservedMode, by simp [decode, decodeInit, hmode]⟩
  | _ :: _ :: _ :: _ :: _ :: _ :: _, _ => exact rejected_init_of_length (by simp)

theorem rejected_setscroll_of_length {ops : List Byte} (h : ops.length ≠ 2) : Rejected (0x20 :: ops) :=
  match ops, h with
  | [], _ => ⟨.badLength, rfl⟩
  | [_], _ => ⟨.badLength, rfl⟩
  | [_, _], h => absurd rfl h
  | _ :: _ :: _ :: _, _ => ⟨.badLength, rfl⟩

theorem rejected_setscroll_of_mode {m d : Byte} (h : 4 ≤ m.toNat) : Rejected [0x20, m, d] :=
  ⟨.reservedMode, by simp [decode, decodeSetscroll, modeOf_reserved h]⟩

theorem rejected_clear_of_length {ops : List Byte} (h : ops.length ≠ 0) : Rejected (0x30 :: ops) :=
  match ops, h with
  | [], h => absurd rfl h
  | _ :: _, _ => ⟨.badLength, rfl⟩

theorem rejected_setint_of_length {ops : List Byte} (h : ops.length ≠ 1) : Rejected (0x50 :: ops) :=
  match ops, h with
  | [], _ => ⟨.badLength, rfl⟩
  | [_], h => absurd rfl h
  | _ :: _ :: _, _ => ⟨.badLength, rfl⟩

theorem rejected_setpwr_of_length {b0 : Byte} {ops : List Byte} (hrow : b0 &&& 0xFE = 0x60) (h : ops.length ≠ 0) :
    Rejected (b0 :: ops) := by
  cases ops with
  | nil => exact absurd rfl h
  | cons b rest =>
    rw [eq_setpwrOpcode b0 hrow]
    cases b0.getLsbD 0 <;> exact ⟨.badLength, rfl⟩

/-- A WRITE frame without a legal selector, a count byte or records that fill it is rejected (R98). -/
theorem rejected_write {b0 : Byte} {ops : List Byte} (hrow : b0 &&& 0xF8 = 0x40)
    (h : ∀ rot g rest records, rotOf b0 = some rot → ops = g :: rest → parseRecords g.toNat rest ≠ some records) :
    Rejected (b0 :: ops) := by
  rw [Rejected, decode_writeRow hrow]
  cases hd : decodeWrite b0 ops with
  | error r => exact ⟨r, rfl⟩
  | ok i =>
    obtain ⟨rot, g, rest, records, hrot, hops, hparse, -⟩ := decodeWrite_eq_ok hd
    exact absurd hparse (h rot g rest records hrot hops)

end Sys2Proof

namespace Sys2Proof.Machine

open Sys2Proof

/-! ## The frame at the port -/

theorem runFrame_of_decode {f : List Byte} {i : Instr} (h : decode f = .ok i) (s : State) :
    runFrame f s = exec i (takeFrame s) := by
  simp only [runFrame, h]

theorem runFrame_of_rejected {f : List Byte} (h : Rejected f) (s : State) :
    runFrame f s = .next (raise .illegalCommand (takeFrame s)) := by
  obtain ⟨r, hr⟩ := h
  simp only [runFrame, hr]

/-- Settles O3: each case is rejected, and a rejected frame raises IllegalCommand, whose flag is bit 3. -/
theorem malformedFramesRaiseIllegalCommand : Obligations.MalformedFramesRaiseIllegalCommand := by
  intro s b0 ops hmalformed
  suffices h : Rejected (b0 :: ops) from runFrame_of_rejected h s
  obtain hopcode | ⟨rfl, hlen⟩ | ⟨rfl, hlen⟩ | ⟨rfl, hlen⟩ | ⟨rfl, hlen⟩ | ⟨hrow, hlen⟩ | ⟨hrow, hlen⟩ |
    ⟨hrow, g, rest, rfl, hrecords⟩ | ⟨rfl, m, d, rfl, hm⟩ | ⟨rfl, m, hget, hm⟩ | ⟨hrow, hrot⟩ := hmalformed
  · exact rejected_of_unknownOpcode ops hopcode
  · exact rejected_init_of_length hlen
  · exact rejected_setscroll_of_length hlen
  · exact rejected_clear_of_length hlen
  · exact rejected_setint_of_length hlen
  · exact rejected_setpwr_of_length hrow hlen
  · refine rejected_write hrow fun _ g rest _ _ hops => ?_
    simp [hops] at hlen
  · refine rejected_write hrow fun _ _ _ records _ hops hparse => hrecords ⟨records, ?_⟩
    cases hops
    exact parseRecords_eq_some hparse
  · exact rejected_setscroll_of_mode hm
  · exact rejected_init_of_mode hget hm
  · refine rejected_write hrow fun rot _ _ _ hsome => ?_
    simp [rotOf_reserved hrot] at hsome

/-! ## The text form -/

/-- Settles O5: the six opcode bytes and the frame, computed. -/
theorem writeLinesAssemble : Obligations.WriteLinesAssemble :=
  ⟨rfl, rfl, rfl, rfl, rfl, rfl, rfl⟩

/-! ## The step that runs a frame -/

/-- With nothing scheduled and no tick pending the command at the port of an idle block starts (R46). -/
theorem freeStep_command {s : State} {f : List Byte} (hact : s.act = .idle) (hframe : s.frame = some f)
    (htick : s.tickPend = false) : freeStep s = runFrame f s := by
  have hcontested : contested s = false := by simp [contested, passReady, htick]
  rw [freeStep, hcontested]
  exact ownStep_command hact hframe

/-- Settles O40: both ways the step runs the frame, and the decoder's answer says what running it does. -/
theorem stepRunsTheDecodedFrame : Obligations.StepRunsTheDecodedFrame := by
  intro s f hvalid hact hframe
  refine ⟨fun rest hq => ?_, fun hq htick => ?_⟩
  · have hstep : step s = runFrame f { s with sched := rest } :=
      (step_of_run hvalid hq).trans (ownStep_command hact hframe)
    exact ⟨fun i hi => hstep.trans (runFrame_of_decode hi _),
      fun r hr => hstep.trans (runFrame_of_rejected ⟨r, hr⟩ _)⟩
  · have hstep : step s = runFrame f s := (step_of_quiet hvalid hq).trans (freeStep_command hact hframe htick)
    exact ⟨fun i hi => hstep.trans (runFrame_of_decode hi s),
      fun r hr => hstep.trans (runFrame_of_rejected ⟨r, hr⟩ s)⟩

end Sys2Proof.Machine
end

section
/-! Proofs for the statements of 40_geometry.md. The two quarter turns undo each other and either one twice is the half
turn; the laws of the turns, of ROTSWAP and of the transforms follow from that. -/

namespace Sys2Proof.Machine

open Sys2Proof

/-! ## Bytes -/

/-- Counted from 0, the row or bit opposite to k is 7 − k. -/
theorem val_rev_eight (k : Fin 8) : k.rev.val = 7 - k.val := by
  rw [Fin.val_rev]
  omega

/-- Bit k of the reversal is the opposite bit (R120). -/
theorem getLsbD_reverseBits_rev (b : Byte) (k : Fin 8) : (reverseBits b).getLsbD k.val = b.getLsbD k.rev.val := by
  rw [getLsbD_reverseBits, val_rev_eight]

/-- R121: the opposite of the opposite bit is the bit itself. -/
@[simp] theorem reverseBits_reverseBits (b : Byte) : reverseBits (reverseBits b) = b :=
  byte_eq_of_bits fun k => by rw [getLsbD_reverseBits_rev, getLsbD_reverseBits_rev, Fin.rev_rev]

/-- Settles O11: R120 bit by bit, and the involution R121. -/
theorem reverseBitsMirrorsTheByte : Obligations.ReverseBitsMirrorsTheByte :=
  fun b => ⟨getLsbD_reverseBits b, reverseBits_reverseBits b⟩

/-! ## Quarter turns -/

/-- Settles O12: R122 and R123 with the row numbered from 0. -/
theorem quarterTurnsBitByBit : Obligations.QuarterTurnsBitByBit := by
  intro a r k
  refine ⟨?_, ?_⟩
  · rw [getLsbD_rotL, Fin.val_rev]
  · rw [getLsbD_rotR, Nat.add_sub_cancel]

/-- R126 (b) -/
@[simp] theorem rotR_rotL (a : Glyph) : rotR (rotL a) = a :=
  glyph_eq_of_bits fun r k => by rw [getLsbD_rotR, getLsbD_rotL, Fin.rev_rev]

/-- R126 (b) -/
@[simp] theorem rotL_rotR (a : Glyph) : rotL (rotR a) = a :=
  glyph_eq_of_bits fun r k => by rw [getLsbD_rotL, getLsbD_rotR, Fin.rev_rev]

/-- R126 (c) -/
theorem rotL_rotL (a : Glyph) : rotL (rotL a) = halfTurn a :=
  glyph_eq_of_bits fun r k => by rw [getLsbD_rotL, getLsbD_rotL, getLsbD_halfTurn]

/-- R126 (c) -/
theorem rotR_rotR (a : Glyph) : rotR (rotR a) = halfTurn a :=
  glyph_eq_of_bits fun r k => by rw [getLsbD_rotR, getLsbD_rotR, getLsbD_halfTurn]

/-- Row 9 − k of the half turn is row k reversed (R126 (c)). -/
@[simp] theorem get_rev_halfTurn (a : Glyph) (k : Fin 8) : (halfTurn a).get k.rev = reverseBits (a.get k) := by
  rw [halfTurn, Eight.get_ofFn, Fin.rev_rev]

/-- Row by row: the row is turned back and its bits are reversed back. -/
@[simp] theorem halfTurn_halfTurn (a : Glyph) : halfTurn (halfTurn a) = a :=
  glyph_eq_of_bits fun r k => by rw [getLsbD_halfTurn, getLsbD_halfTurn, Fin.rev_rev, Fin.rev_rev]

/-! ## The turns a WRITE asks for, for both values of ROTSWAP (R125) -/

@[simp] theorem rotateRight_rotateLeft (w : Bool) (a : Glyph) : rotateRight w (rotateLeft w a) = a := by
  cases w
  · exact rotR_rotL a
  · exact rotL_rotR a

@[simp] theorem rotateLeft_rotateRight (w : Bool) (a : Glyph) : rotateLeft w (rotateRight w a) = a := by
  cases w
  · exact rotL_rotR a
  · exact rotR_rotL a

@[simp] theorem rotateLeft_rotateLeft (w : Bool) (a : Glyph) : rotateLeft w (rotateLeft w a) = halfTurn a := by
  cases w
  · exact rotL_rotL a
  · exact rotR_rotR a

@[simp] theorem rotateRight_rotateRight (w : Bool) (a : Glyph) : rotateRight w (rotateRight w a) = halfTurn a := by
  cases w
  · exact rotR_rotR a
  · exact rotL_rotL a

/-- The half turn is two turns right, and the first undoes the turn left (R130). -/
theorem halfTurn_rotateLeft (w : Bool) (a : Glyph) : halfTurn (rotateLeft w a) = rotateRight w a := by
  rw [← rotateRight_rotateRight w, rotateRight_rotateLeft]

/-- The half turn is two turns left, and the first undoes the turn right (R130). -/
theorem halfTurn_rotateRight (w : Bool) (a : Glyph) : halfTurn (rotateRight w a) = rotateLeft w a := by
  rw [← rotateLeft_rotateLeft w, rotateLeft_rotateRight]

/-- Settles O13: two turns either way are the half turn, and the half turn undoes itself. -/
theorem quarterTurnLaws : Obligations.QuarterTurnLaws := by
  intro w a
  refine ⟨?_, ?_, rotateRight_rotateLeft w a, rotateLeft_rotateRight w a, ?_, fun k => ?_⟩
  · rw [rotateLeft_rotateLeft, rotateLeft_rotateLeft, halfTurn_halfTurn]
  · rw [rotateRight_rotateRight, rotateRight_rotateRight, halfTurn_halfTurn]
  · rw [rotL_rotL, rotR_rotR]
  · rw [rotL_rotL, get_rev_halfTurn]

/-! ## The compositor -/

theorem compose_cons (w : Bool) (rot : Rot) (inv : Bool) (g : Glyph) (glyphs : List Glyph) :
    compose w rot inv (g :: glyphs) = composeBlock w rot inv g ++ compose w rot inv glyphs :=
  List.flatMap_cons

/-- Glyphs do not interact (R131). -/
theorem compose_append (w : Bool) (rot : Rot) (inv : Bool) (x y : List Glyph) :
    compose w rot inv (x ++ y) = compose w rot inv x ++ compose w rot inv y :=
  List.flatMap_append

/-- Every block is 8 bytes long, so block i begins at byte 8*i (R129). -/
theorem compose_getElem? (w : Bool) (rot : Rot) (inv : Bool) {glyphs : List Glyph} {i : Nat} {g : Glyph}
    (h : glyphs[i]? = some g) (j : Fin 8) :
    (compose w rot inv glyphs)[i * 8 + j.val]? = (composeBlock w rot inv g)[j.val]? := by
  induction glyphs generalizing i with
  | nil => simp at h
  | cons g' rest ih =>
    rw [compose_cons]
    cases i with
    | zero =>
      obtain rfl : g' = g := by simpa using h
      rw [List.getElem?_append_left (by simp), Nat.zero_mul, Nat.zero_add]
    | succ i =>
      have hrest : rest[i]? = some g := by simpa using h
      rw [List.getElem?_append_right (by simp; omega), length_composeBlock, ← ih hrest]
      congr 1
      omega

/-- Row k of a block without `invert` (R129). -/
theorem composeBlock_getElem? (w : Bool) (rot : Rot) (g : Glyph) (k : Fin 8) :
    (composeBlock w rot false g)[k.val]? = some ((rotate w rot g).get k) :=
  Eight.toList_getElem? _ k

/-- Row 9 − k of a block with `invert` (R129). -/
theorem composeBlock_inverted_getElem? (w : Bool) (rot : Rot) (g : Glyph) (k : Fin 8) :
    (composeBlock w rot true g)[k.rev.val]? = some (reverseBits ((rotate w rot g).get k)) := by
  rw [← get_rev_halfTurn]
  exact Eight.toList_getElem? _ k.rev

/-- Settles O14: block i begins at byte 8*i, and its rows are those of the rotated glyph or of its half turn. -/
theorem composePlacesEveryRow : Obligations.ComposePlacesEveryRow := by
  intro w rot glyphs
  refine ⟨fun inv => length_compose w rot inv glyphs, fun i g k hg => ⟨?_, ?_⟩⟩
  · exact (compose_getElem? w rot false hg k).trans (composeBlock_getElem? w rot g k)
  · rw [← val_rev_eight]
    exact (compose_getElem? w rot true hg k.rev).trans (composeBlock_inverted_getElem? w rot g k)

/-- A turn left, inverted, is a turn right (R130). -/
theorem composeBlock_left_inverted (w : Bool) : composeBlock w .left true = composeBlock w .right false :=
  funext fun g => congrArg Eight.toList (halfTurn_rotateLeft w g)

/-- A turn right, inverted, is a turn left (R130). -/
theorem composeBlock_right_inverted (w : Bool) : composeBlock w .right true = composeBlock w .left false :=
  funext fun g => congrArg Eight.toList (halfTurn_rotateRight w g)

/-- Settles O15: the transforms agree block by block, and the result is the blocks joined. -/
theorem transformsCombine : Obligations.TransformsCombine := by
  intro w rot inv x y
  refine ⟨?_, ?_, compose_append w rot inv x y⟩
  · rw [compose, compose, composeBlock_left_inverted]
  · rw [compose, compose, composeBlock_right_inverted]

end Sys2Proof.Machine
end

section
/-! Proofs for the statements of 41_commit.md: what a commit leaves behind, a command run phase by phase against its
whole meaning, and which phases and commands write which registers. -/

namespace Sys2Proof.Machine

open Sys2Proof

/-! ## What a commit leaves behind -/

/-- Settles O22: the commit's state is known field by field, and FB is the content. -/
theorem committedContentReadsBack : Obligations.CommittedContentReadsBack := by
  intro content s t hcommit
  obtain ⟨-, rfl⟩ := commit_next hcommit
  refine ⟨rfl, rfl, rfl, rfl, rfl, fun idx => ?_⟩
  rw [fbRead_of_content _ content rfl rfl idx]
  by_cases hlen : idx ≤ content.length
  · simp [hlen]
  · have hblank : content.getD (idx.toNat - 1) 0 = 0 := List.getD_eq_default _ _ (by omega)
    simp only [hblank, ite_self]

/-! ## A command phase by phase -/

/-- No phase changes the parameters or the schedule. -/
theorem phaseStep_keeps_world {p : Phase} {s t : State} (h : phaseStep p s = .next t) :
    t.cfg = s.cfg ∧ t.sched = s.sched := by
  cases p with
  | replace content =>
    simp only [phaseStep, replaceBuffer] at h
    split at h <;> cases h
    exact ⟨rfl, rfl⟩
  | _ => cases h; simp

/-- With nothing scheduled a command in progress goes on (R46, R75): no pass can start beside it. -/
theorem step_of_command {s : State} {k : CmdKind} {todo : List Phase} (hvalid : s.cfg.valid = true)
    (hq : s.sched = []) (hact : s.act = .cmd k todo) : step s = cmdStep k todo s := by
  have hcontested : contested s = false := by simp [contested, passReady, hact]
  simp [step_of_quiet hvalid hq, freeStep, hcontested, ownStep, hact]

/-- With nothing scheduled the phases of a command in progress, one a step, and the response give what they give at
once (R74, R143). -/
theorem steps_of_command {s : State} {k : CmdKind} {todo : List Phase} (hvalid : s.cfg.valid = true)
    (hq : s.sched = []) (hact : s.act = .cmd k todo) : steps (todo.length + 1) s = finish todo s := by
  induction todo generalizing s with
  | nil => simp [steps, step_of_command hvalid hq hact, cmdStep, finish]
  | cons p rest ih =>
    have hstep : step s = phaseStep p { s with act := .cmd k rest } := step_of_command hvalid hq hact
    rw [← finish_act (p :: rest) s (.cmd k rest), finish_cons, ← hstep]
    change andThen (step s) (steps (rest.length + 1)) = andThen (step s) (finish rest)
    cases hphase : step s with
    | next u =>
      obtain ⟨hcfg, hsched⟩ := phaseStep_keeps_world (hstep ▸ hphase)
      obtain ⟨-, -, hactu⟩ := phaseStep_outputs (hstep ▸ hphase)
      exact ih (hcfg ▸ hvalid) (hsched.trans hq) hactu
    | fault _ => rfl
    | refused _ => rfl

/-- The command at the port of an idle block starts phase by phase where the choice asks for it so. -/
theorem ownStep_commandPhased {s : State} {f : List Byte} {i : Instr} (hact : s.act = .idle)
    (hframe : s.frame = some f) (hdecode : decode f = .ok i) :
    ownStep .commandPhased s = .next (begin i (takeFrame s)) := by
  simp [ownStep, hact, idleStep, hframe, startCommand, beginFrame, hdecode]

/-- Started phase by phase with nothing scheduled, a command comes to what its meaning gives (R74, R143): an error ends
it at once, a plan is finished. -/
theorem steps_of_begin {s : State} (hvalid : s.cfg.valid = true) (hq : s.sched = []) (i : Instr) :
    ∃ k, steps k (begin i s) = exec i s := by
  cases hplan : plan i s with
  | error e => exact ⟨0, by rw [steps, begin, hplan, exec_of_plan_error hplan]⟩
  | ok p =>
    obtain ⟨k, todo⟩ := p
    refine ⟨todo.length + 1, ?_⟩
    calc steps (todo.length + 1) (begin i s)
      _ = steps (todo.length + 1) { s with act := .cmd k todo } := by rw [begin, hplan]
      _ = finish todo { s with act := .cmd k todo } := steps_of_command hvalid hq rfl
      _ = exec i s := by rw [finish_act, exec_of_plan hplan]

/-- Settles O42: the first step takes the frame and begins the command, the others bring it to its end. -/
theorem phasedCommandEqualsTheWhole : Obligations.PhasedCommandEqualsTheWhole := by
  intro s t f i hvalid hact hframe hdecode hq hexec
  have hstart : step s = .next (begin i (takeFrame { s with sched := [] })) :=
    (step_of_run hvalid hq).trans (ownStep_commandPhased hact hframe hdecode)
  obtain ⟨k, hk⟩ := steps_of_begin (s := takeFrame { s with sched := [] }) hvalid rfl i
  refine ⟨k + 1, ?_⟩
  rw [steps, hstart, andThen_next, hk]
  exact hexec

/-! ## Who writes which registers -/

/-- The registers that are written together: N and PIN, MODE and DELAY, FB and LEN, INITED. -/
inductive RegGroup where
  | chain
  | scroll
  | buffer
  | run

/-- The registers of the group are the same in both states. -/
def Unchanged (g : RegGroup) (s t : State) : Prop :=
  match g with
  | .chain => t.n = s.n ∧ t.pin = s.pin
  | .scroll => t.mode = s.mode ∧ t.delay = s.delay
  | .buffer => t.fb = s.fb ∧ t.len = s.len
  | .run => t.inited = s.inited

/-- An update that writes none of the seven registers leaves every group. -/
theorem unchanged_of_fields {g : RegGroup} {s t : State} (h : t.n = s.n ∧ t.pin = s.pin ∧ t.mode = s.mode ∧
    t.delay = s.delay ∧ t.fb = s.fb ∧ t.len = s.len ∧ t.inited = s.inited) : Unchanged g s t := by
  obtain ⟨hn, hpin, hmode, hdelay, hfb, hlen, hinited⟩ := h
  cases g with
  | chain => exact ⟨hn, hpin⟩
  | scroll => exact ⟨hmode, hdelay⟩
  | buffer => exact ⟨hfb, hlen⟩
  | run => exact hinited

theorem Unchanged.trans {g : RegGroup} {s u t : State} (h1 : Unchanged g s u) (h2 : Unchanged g u t) :
    Unchanged g s t := by
  cases g with
  | run => exact Eq.trans h2 h1
  | _ => exact ⟨h2.1.trans h1.1, h2.2.trans h1.2⟩

/-- Which registers a phase writes (R142, R165, R198). -/
def Phase.writes : Phase → RegGroup → Bool
  | .configure _ _ _ _, .chain => true
  | .configure _ _ _ _, .scroll => true
  | .setScroll _ _, .scroll => true
  | .replace _, .buffer => true
  | .start, .run => true
  | _, _ => false

/-- Which registers a command writes (R141, R165, R198). -/
def commandWrites : Instr → RegGroup → Bool
  | .init _ _ _ _ _, _ => true
  | .setscroll _ _, .scroll => true
  | .clear, .buffer => true
  | .write _ _ _, .buffer => true
  | _, _ => false

theorem phaseStep_unchanged {p : Phase} {g : RegGroup} {s t : State} (h : phaseStep p s = .next t)
    (hp : p.writes g = false) : Unchanged g s t := by
  cases p with
  | configure n pin mm dd =>
    cases h
    cases g with
    | chain | scroll => cases hp
    | buffer => exact ⟨rfl, rfl⟩
    | run => rfl
  | setScroll mm dd =>
    cases h
    cases g with
    | scroll => cases hp
    | chain | buffer => exact ⟨rfl, rfl⟩
    | run => rfl
  | replace content =>
    simp only [phaseStep, replaceBuffer] at h
    split at h <;> cases h
    cases g with
    | buffer => cases hp
    | chain | scroll => exact ⟨rfl, rfl⟩
    | run => rfl
  | start =>
    cases h
    cases g with
    | run => cases hp
    | _ => exact ⟨rfl, rfl⟩
  | lock | scrollReset | unlock | send _ => cases h; exact unchanged_of_fields (by simp)

theorem finish_unchanged {todo : List Phase} {g : RegGroup} {s t : State} (h : finish todo s = .next t)
    (htodo : ∀ p ∈ todo, p.writes g = false) : Unchanged g s t := by
  induction todo generalizing s with
  | nil => cases h; exact unchanged_of_fields (by simp)
  | cons p rest ih =>
    rw [finish_cons, andThen_eq_next] at h
    obtain ⟨u, hphase, hrest⟩ := h
    exact (phaseStep_unchanged hphase (htodo p (by simp))).trans (ih hrest fun q hq => htodo q (by simp [hq]))

theorem raise_unchanged (e : Err) (g : RegGroup) (s : State) : Unchanged g s (raise e s) :=
  unchanged_of_fields (by simp)

/-- The emissions of a broadcast write no register (R195). -/
theorem broadcastPhases_writes {n : Nat} {reg d : Byte} {p : Phase} (h : p ∈ broadcastPhases n reg d) (g : RegGroup) :
    p.writes g = false := by
  obtain ⟨w, -, rfl⟩ := List.mem_map.mp h
  rfl

/-- Of the four groups a commit's phases write FB and LEN only (R142). -/
theorem commitPhases_writes {content : List Byte} {p : Phase} {g : RegGroup} (h : p ∈ commitPhases content)
    (hg : g ≠ .buffer) : p.writes g = false := by
  simp only [commitPhases, List.mem_cons, List.not_mem_nil, or_false] at h
  cases g with
  | buffer => exact absurd rfl hg
  | _ => obtain rfl | rfl | rfl | rfl := h <;> rfl

/-- The phases of a command write only what the command writes. -/
theorem plan_writes {i : Instr} {s : State} {k : CmdKind} {todo : List Phase} {g : RegGroup}
    (h : plan i s = .ok (k, todo)) (hi : commandWrites i g = false) {p : Phase} (hp : p ∈ todo) :
    p.writes g = false := by
  cases i with
  | init nn pp ii mm dd => cases hi
  | setscroll mm dd =>
    simp only [plan] at h
    split at h <;> cases h
    obtain rfl := List.mem_singleton.mp hp
    cases g with
    | scroll => cases hi
    | _ => rfl
  | clear | write rot inv records =>
    simp only [plan] at h
    split at h <;> cases h
    exact commitPhases_writes hp (by rintro rfl; cases hi)
  | setint vv | setpwr on =>
    simp only [plan] at h
    split at h <;> cases h
    exact broadcastPhases_writes hp g

theorem exec_unchanged {i : Instr} {g : RegGroup} {s t : State} (h : exec i s = .next t)
    (hi : commandWrites i g = false) : Unchanged g s t := by
  cases hplan : plan i s with
  | error e =>
    cases (exec_of_plan_error hplan).symm.trans h
    exact raise_unchanged e g s
  | ok p => exact finish_unchanged ((exec_of_plan hplan).symm.trans h) fun _ => plan_writes hplan hi

/-- In `s` the operation about to run writes the group: the next phase of a command, or a frame's whole command. -/
inductive WriterRuns (g : RegGroup) (s : State) : Prop where
  | phase (k : CmdKind) (p : Phase) (rest : List Phase) (act : s.act = .cmd k (p :: rest)) (writes : p.writes g = true)
  | command (f : List Byte) (i : Instr) (act : s.act = .idle) (frame : s.frame = some f) (decoded : decode f = .ok i)
      (writes : commandWrites i g = true)

theorem runFrame_unchanged {f : List Byte} {g : RegGroup} {s t : State} (h : runFrame f s = .next t) :
    Unchanged g s t ∨ ∃ i, decode f = .ok i ∧ commandWrites i g = true := by
  cases hdecode : decode f with
  | error r =>
    cases (runFrame_of_rejected ⟨r, hdecode⟩ s).symm.trans h
    exact .inl (raise_unchanged .illegalCommand g s)
  | ok i =>
    cases hi : commandWrites i g with
    | true => exact .inr ⟨i, rfl, hi⟩
    | false => exact .inl (exec_unchanged (s := takeFrame s) ((runFrame_of_decode hdecode s).symm.trans h) hi)

/-- Starting a command phase by phase writes none of the four groups yet. -/
theorem beginFrame_unchanged (f : List Byte) (g : RegGroup) (s : State) : Unchanged g s (beginFrame f s) := by
  unfold beginFrame
  split
  · unfold begin
    split
    · exact unchanged_of_fields (by simp)
    · exact unchanged_of_fields (by simp)
  · exact unchanged_of_fields (by simp)

theorem cmdStep_unchanged {k : CmdKind} {todo : List Phase} {g : RegGroup} {s t : State}
    (h : cmdStep k todo s = .next t) :
    Unchanged g s t ∨ ∃ p rest, todo = p :: rest ∧ p.writes g = true := by
  cases todo with
  | nil => cases h; exact .inl (unchanged_of_fields (by simp))
  | cons p rest =>
    cases hp : p.writes g with
    | true => exact .inr ⟨p, rest, rfl, hp⟩
    | false => exact .inl (phaseStep_unchanged (s := { s with act := .cmd k rest }) h hp)

theorem ownEffect_unchanged {g : RegGroup} {s t : State} (eff : OwnEffect s t) :
    Unchanged g s t ∨ WriterRuns g s := by
  cases eff with
  | wait _ _ _ eq => exact .inl (unchanged_of_fields (by simp [eq]))
  | pass _ eq => exact .inl (unchanged_of_fields (by simp [eq]))
  | whole f hact hframe eq =>
    obtain hkept | ⟨i, hdecode, hi⟩ := runFrame_unchanged eq
    · exact .inl hkept
    · exact .inr (.command f i hact hframe hdecode hi)
  | phased f _ _ eq => exact .inl (eq ▸ beginFrame_unchanged f g s)
  | command k todo hact eq =>
    obtain hkept | ⟨p, rest, rfl, hp⟩ := cmdStep_unchanged eq
    · exact .inl hkept
    · exact .inr (.phase k p rest hact hp)
  | row m r _ eq =>
    obtain ⟨d, -, rfl⟩ := rowStep_next eq
    exact .inl (unchanged_of_fields (by simp))

/-- A step without the reset input leaves the group as it is, or an operation that writes it runs. -/
theorem step_unchanged {g : RegGroup} {s t : State} (hnr : notReset s) (hstep : step s = .next t) :
    Unchanged g s t ∨ WriterRuns g s := by
  obtain ⟨-, eff⟩ := step_cases hstep
  cases eff with
  | tick _ _ eq => exact .inl (unchanged_of_fields (by simp [eq]))
  | byte _ _ _ _ _ eq => exact .inl (unchanged_of_fields (by simp [eq]))
  | stall _ _ eq => exact .inl (unchanged_of_fields (by simp [eq]))
  | rst rest hq => exact absurd hnr (not_notReset hq)
  | own q b _ eff =>
    obtain hkept | hwriter := ownEffect_unchanged (g := g) eff
    · exact .inl hkept
    · cases hwriter with
      | phase k p rest hact hp => exact .inr (.phase k p rest hact hp)
      | command f i hact hframe hdecode hi => exact .inr (.command f i hact hframe hdecode hi)

/-- The whole command `i` starts: its frame waits at an idle block. -/
def Starts (s : State) (i : Instr) : Prop := s.act = .idle ∧ ∃ f, s.frame = some f ∧ decode f = .ok i

theorem writer_of_chain {s : State} (h : WriterRuns .chain s) :
    (∃ k n p mm dd rest, s.act = .cmd k (.configure n p mm dd :: rest)) ∨
      ∃ nn pp ii mm dd, Starts s (.init nn pp ii mm dd) := by
  cases h with
  | phase k p rest hact hp =>
    cases p with
    | configure n pin mm dd => exact .inl ⟨k, n, pin, mm, dd, rest, hact⟩
    | _ => cases hp
  | command f i hact hframe hdecode hi =>
    cases i with
    | init nn pp ii mm dd => exact .inr ⟨nn, pp, ii, mm, dd, hact, f, hframe, hdecode⟩
    | _ => cases hi

theorem writer_of_scroll {s : State} (h : WriterRuns .scroll s) :
    (∃ k n p mm dd rest, s.act = .cmd k (.configure n p mm dd :: rest)) ∨
      (∃ nn pp ii mm dd, Starts s (.init nn pp ii mm dd)) ∨
      (∃ k mm dd rest, s.act = .cmd k (.setScroll mm dd :: rest)) ∨ ∃ mm dd, Starts s (.setscroll mm dd) := by
  cases h with
  | phase k p rest hact hp =>
    cases p with
    | configure n pin mm dd => exact .inl ⟨k, n, pin, mm, dd, rest, hact⟩
    | setScroll mm dd => exact .inr (.inr (.inl ⟨k, mm, dd, rest, hact⟩))
    | _ => cases hp
  | command f i hact hframe hdecode hi =>
    cases i with
    | init nn pp ii mm dd => exact .inr (.inl ⟨nn, pp, ii, mm, dd, hact, f, hframe, hdecode⟩)
    | setscroll mm dd => exact .inr (.inr (.inr ⟨mm, dd, hact, f, hframe, hdecode⟩))
    | _ => cases hi

theorem writer_of_buffer {s : State} (h : WriterRuns .buffer s) :
    (∃ k content rest, s.act = .cmd k (.replace content :: rest)) ∨
      (∃ nn pp ii mm dd, Starts s (.init nn pp ii mm dd)) ∨ Starts s .clear ∨
      ∃ rot inv records, Starts s (.write rot inv records) := by
  cases h with
  | phase k p rest hact hp =>
    cases p with
    | replace content => exact .inl ⟨k, content, rest, hact⟩
    | _ => cases hp
  | command f i hact hframe hdecode hi =>
    cases i with
    | init nn pp ii mm dd => exact .inr (.inl ⟨nn, pp, ii, mm, dd, hact, f, hframe, hdecode⟩)
    | clear => exact .inr (.inr (.inl ⟨hact, f, hframe, hdecode⟩))
    | write rot inv records => exact .inr (.inr (.inr ⟨rot, inv, records, hact, f, hframe, hdecode⟩))
    | _ => cases hi

theorem writer_of_run {s : State} (h : WriterRuns .run s) :
    (∃ k rest, s.act = .cmd k (.start :: rest)) ∨ ∃ nn pp ii mm dd, Starts s (.init nn pp ii mm dd) := by
  cases h with
  | phase k p rest hact hp =>
    cases p with
    | start => exact .inl ⟨k, rest, hact⟩
    | _ => cases hp
  | command f i hact hframe hdecode hi =>
    cases i with
    | init nn pp ii mm dd => exact .inr ⟨nn, pp, ii, mm, dd, hact, f, hframe, hdecode⟩
    | _ => cases hi

/-- No update but the reset clears INITED (R22, R228). -/
theorem inited_kept : KeptByUpdates fun s => s.inited = true where
  world _ _ _ _ _ _ _ hs := hs
  passOffset s hs := by simpa using hs
  phase p s t h hs := by
    cases hp : p.writes .run with
    | false => exact Eq.trans (phaseStep_unchanged (g := .run) h hp) hs
    | true =>
      cases p with
      | start => cases h; rfl
      | _ => cases hp
  respondOk _ hs := hs
  raise _ _ hs := hs

/-- Without the reset input a change of INITED is to 1 (R22). -/
theorem inited_of_changed {s t : State} (hnr : notReset s) (hstep : step s = .next t) (hne : t.inited ≠ s.inited) :
    t.inited = true := by
  cases hs : s.inited with
  | false => simpa [hs] using hne
  | true =>
    obtain ht | ⟨rest, hq, -⟩ := inited_kept.keeps_step hstep hs
    · exact ht
    · exact absurd hnr (not_notReset hq)

/-- Settles O51: a group that a step changes has a writer running, and each group's writers are known. -/
theorem eachRegisterHasItsWriters : Obligations.EachRegisterHasItsWriters := by
  intro s t hnr hstep starts configures initStarts
  have writer {g : RegGroup} (hne : ¬ Unchanged g s t) : WriterRuns g s :=
    (step_unchanged hnr hstep).resolve_left hne
  refine ⟨fun hne => ?_, fun hne => ?_, fun hne => ?_, fun hne => ⟨inited_of_changed hnr hstep hne, ?_⟩⟩
  · exact writer_of_chain (writer fun h => hne.elim (absurd h.1) (absurd h.2))
  · exact writer_of_scroll (writer fun h => hne.elim (absurd h.1) (absurd h.2))
  · exact writer_of_buffer (writer fun h => hne.elim (absurd h.1) (absurd h.2))
  · exact writer_of_run (writer hne)

end Sys2Proof.Machine
end

section
/-! Proofs for the statements of 42_scroll.md: the scroll reset, one scroll step, the bounds of the offset, and the
cycles. A cycle is counted in advances: the steps between two advances only count down, so `max 1 DELAY` steps are one
advance (R163), and a run of advances inside the bounds is one linear move. -/

namespace Sys2Proof.Machine

open Sys2Proof

/-! ## One advance -/

/-- The two wrap boundaries from the inside (R162). -/
theorem beyondBound_eq_false_iff (s : State) :
    beyondBound s = false ↔ -(s.c : Int) ≤ s.off + s.dir.toInt ∧ s.off + s.dir.toInt ≤ s.len := by
  rw [← Bool.not_eq_true, beyondBound_iff]
  omega

theorem advance_of_inside {s : State} (hlo : -(s.c : Int) ≤ s.off + s.dir.toInt)
    (hhi : s.off + s.dir.toInt ≤ s.len) : advance s = { s with off := s.off + s.dir.toInt } := by
  simp [advance, (beyondBound_eq_false_iff s).mpr ⟨hlo, hhi⟩, trialOff]

theorem advance_left_of_beyond {s : State} (hb : beyondBound s = true) (hmode : s.mode = .left) :
    advance s = { s with off := s.len } := by
  simp [advance, hb, hmode]

theorem advance_right_of_beyond {s : State} (hb : beyondBound s = true) (hmode : s.mode = .right) :
    advance s = { s with off := -(s.c : Int) } := by
  simp [advance, hb, hmode]

theorem advance_bounce_of_beyond {s : State} (hb : beyondBound s = true) (hmode : s.mode = .bounce) :
    advance s = { s with dir := s.dir.neg } := by
  simp [advance, hb, hmode]

/-- A run of advances that starts and ends inside the bounds moves OFF by DIR each time. -/
theorem iterate_advance_of_inside (k : Nat) {s : State} (hlo : -(s.c : Int) ≤ s.off) (hhi : s.off ≤ s.len)
    (hlo' : -(s.c : Int) ≤ s.off + k * s.dir.toInt) (hhi' : s.off + k * s.dir.toInt ≤ s.len) :
    advance^[k] s = { s with off := s.off + k * s.dir.toInt } := by
  induction k with
  | zero => simp
  | succ k ih =>
    have hsucc : s.off + (k + 1 : Nat) * s.dir.toInt = s.off + k * s.dir.toInt + s.dir.toInt := by
      push_cast
      ring
    have hbetween : -(s.c : Int) ≤ s.off + k * s.dir.toInt ∧ s.off + k * s.dir.toInt ≤ s.len := by
      cases hdir : s.dir <;> simp only [hdir, Dir.toInt] at hlo' hhi' ⊢ <;> omega
    rw [hsucc] at hlo' hhi' ⊢
    rw [Function.iterate_succ_apply', ih hbetween.1 hbetween.2]
    exact advance_of_inside (s := { s with off := s.off + k * s.dir.toInt }) hlo' hhi'

/-! ## One step -/

theorem scrollStep_of_counting {s : State} (h : 1 < s.cnt.toNat) : scrollStep s = { s with cnt := s.cnt - 1 } := by
  have hpos : 0 < s.cnt.toNat := by omega
  rw [scrollStep, if_neg (by rw [decremented_eq_zero]; omega), decremented, if_pos hpos]

theorem scrollStep_of_runOut {s : State} (h : s.cnt.toNat ≤ 1) :
    scrollStep s = advance { s with cnt := s.delay } := by
  rw [scrollStep, if_pos ((decremented_eq_zero s.cnt).mpr h)]

/-- The countdown runs out after CNT steps, or after one where CNT is 0 (R163). -/
theorem iterate_scrollStep_countdown (s : State) :
    scrollStep^[max 1 s.cnt.toNat] s = advance { s with cnt := s.delay } := by
  induction hn : s.cnt.toNat generalizing s with
  | zero => exact scrollStep_of_runOut (by omega)
  | succ n ih =>
    obtain rfl | hpos := Nat.eq_zero_or_pos n
    · exact scrollStep_of_runOut (by omega)
    · have hcnt : (s.cnt - 1).toNat = n := by bv_omega
      have hmax : max 1 (n + 1) = max 1 n + 1 := by omega
      rw [hmax, Function.iterate_succ_apply, scrollStep_of_counting (by omega)]
      exact ih { s with cnt := s.cnt - 1 } hcnt

/-- One advance every `max 1 DELAY` steps, where the countdown has just been loaded (R163). -/
theorem iterate_scrollStep_eq_iterate_advance (k : Nat) {s : State} (h : s.cnt = s.delay) :
    scrollStep^[max 1 s.delay.toNat * k] s = advance^[k] s := by
  induction k generalizing s with
  | zero => rfl
  | succ k ih =>
    have hload : { s with cnt := s.delay } = s := congrArg (fun cnt => { s with cnt := cnt }) h.symm
    have hone : scrollStep^[max 1 s.delay.toNat] s = advance s := by
      rw [← h, iterate_scrollStep_countdown, hload]
    have hdelay : (advance s).delay = s.delay := by simp
    have ih' := ih (s := advance s) (by simp [h])
    rw [hdelay] at ih'
    rw [Nat.mul_succ, Function.iterate_add_apply, hone, ih', Function.iterate_succ_apply]

/-- Settles O25: the step counts down, or it is the advance of the reloaded state. -/
theorem scrollStepFollowsTheRule : Obligations.ScrollStepFollowsTheRule := by
  intro s hmode
  have hc : (s.c : Int) = 8 * (s.n.toNat : Int) := by simp [State.c]
  refine ⟨scrollStep_of_counting, fun hcnt hlo hhi => ?_, fun hcnt hbeyond => ?_⟩
  · rw [scrollStep_of_runOut hcnt]
    exact advance_of_inside (s := { s with cnt := s.delay }) (hc ▸ hlo) hhi
  · have hb : beyondBound { s with cnt := s.delay } = true :=
      (beyondBound_iff _).mpr (hc ▸ hbeyond.symm)
    rw [scrollStep_of_runOut hcnt, ← hc]
    split
    next hm => exact absurd hm hmode
    next hm => exact advance_left_of_beyond hb hm
    next hm => exact advance_right_of_beyond hb hm
    next hm => exact advance_bounce_of_beyond hb hm

/-! ## The scroll reset and the bounds of the offset -/

theorem scrollReset_of_mode {s : State} {mode : Mode} (h : s.mode = mode) :
    scrollReset s = { s with off := resetOff mode s.len, dir := resetDir mode, cnt := s.delay } := by
  rw [scrollReset, h]

/-- Settles O24, by the mode. -/
theorem scrollResetFollowsTheMode : Obligations.ScrollResetFollowsTheMode := fun _ =>
  ⟨scrollReset_of_mode, scrollReset_of_mode, scrollReset_of_mode, scrollReset_of_mode⟩

/-- OFF after a reset is 0 or LEN, so inside the bounds (R156, R167). -/
theorem resetOff_bounds (mode : Mode) (len c : Nat) : -(c : Int) ≤ resetOff mode len ∧ resetOff mode len ≤ len := by
  cases mode <;> simp only [resetOff] <;> omega

/-- A step keeps the bounds of the offset, in every mode (R167). -/
theorem scrollStep_offBounds {s : State} (h : -(s.c : Int) ≤ s.off ∧ s.off ≤ s.len) :
    -(s.c : Int) ≤ (scrollStep s).off ∧ (scrollStep s).off ≤ s.len := by
  rw [scrollStep_off]
  split
  · cases hb : beyondBound s with
    | true => cases s.mode <;> simp only [if_true] <;> omega
    | false => simpa using (beyondBound_eq_false_iff s).mp hb
  · exact h

/-- A step changes DIR exactly where the countdown runs out beyond a bound in bounce mode (R162). -/
theorem scrollStep_dir_ne_iff {s : State} (hdir : s.mode = .bounce → s.dir ≠ .zero) :
    (scrollStep s).dir ≠ s.dir ↔ s.cnt.toNat ≤ 1 ∧ beyondBound s = true ∧ s.mode = .bounce := by
  rw [scrollStep_dir]
  split
  case isTrue h =>
    have hneg : s.dir.neg ≠ s.dir := by
      cases hd : s.dir with
      | zero => exact absurd hd (hdir h.2.2)
      | minus | plus => decide
    exact iff_of_true hneg h
  case isFalse h => exact iff_of_false (fun hne => hne rfl) h

/-- An offset inside the bounds leaves them by one step at LEN upwards and at −C downwards only. -/
theorem beyondBound_iff_atBound {s : State} (h : -(s.c : Int) ≤ s.off ∧ s.off ≤ s.len) :
    beyondBound s = true ↔ (s.off = s.len ∧ s.dir = .plus) ∨ (s.off = -(s.c : Int) ∧ s.dir = .minus) := by
  rw [beyondBound_iff]
  cases s.dir <;> simp [Dir.toInt] <;> omega

/-- Settles O26: a reset and a step keep the bounds, and inside them only the two ends are beyond by one step. -/
theorem offsetStaysWithinItsBounds : Obligations.OffsetStaysWithinItsBounds := by
  intro s
  refine ⟨by simpa using resetOff_bounds s.mode s.len s.c, fun hsettled _ => ?_⟩
  obtain ⟨hlo, hhi⟩ := scrollStep_offBounds hsettled.offBounds
  have hdir : s.mode = .bounce → s.dir ≠ .zero := by
    intro hmode hzero
    simpa [DirAgrees, hmode, hzero] using hsettled.dirAgrees
  refine ⟨hlo, hhi, ?_⟩
  rw [scrollStep_dir_ne_iff hdir, beyondBound_iff_atBound hsettled.offBounds]
  tauto

/-! ## The cycles -/

/-- From a reset, advances are counted in runs of `max 1 DELAY` steps (R163). -/
theorem iterate_scrollStep_scrollReset (k : Nat) (s : State) :
    scrollStep^[max 1 s.delay.toNat * k] (scrollReset s) = advance^[k] (scrollReset s) :=
  iterate_scrollStep_eq_iterate_advance (s := scrollReset s) k rfl

theorem iterate_advance_down {k : Nat} {s : State} (hdir : s.dir = .minus) (htop : s.off = s.len)
    (hk : k ≤ s.len + s.c) : advance^[k] s = { s with off := (s.len : Int) - k } := by
  have hend : s.off + k * s.dir.toInt = (s.len : Int) - k := by
    rw [hdir, htop, Dir.toInt]
    ring
  rw [iterate_advance_of_inside k (by omega) (by omega) (by omega) (by omega), hend]

theorem iterate_advance_up {k : Nat} {s : State} (hdir : s.dir = .plus) (hlo : -(s.c : Int) ≤ s.off)
    (hk : s.off + k ≤ s.len) : advance^[k] s = { s with off := s.off + k } := by
  have hend : s.off + k * s.dir.toInt = s.off + k := by
    rw [hdir, Dir.toInt, mul_one]
  rw [iterate_advance_of_inside k hlo (by omega) (by omega) (by omega), hend]

theorem beyondBound_bottom {s : State} (hdir : s.dir = .minus) :
    beyondBound { s with off := -(s.c : Int) } = true :=
  (beyondBound_iff _).mpr (.inr (by simp [hdir, Dir.toInt, State.c]))

theorem beyondBound_top {s : State} (hdir : s.dir = .plus) : beyondBound { s with off := s.len } = true :=
  (beyondBound_iff _).mpr (.inl (by simp [hdir, Dir.toInt]))

/-- From LEN down to −C takes LEN + C advances. -/
theorem iterate_advance_to_bottom {s : State} (hdir : s.dir = .minus) (htop : s.off = s.len) :
    advance^[s.len + s.c] s = { s with off := -(s.c : Int) } := by
  have hend : (s.len : Int) - (s.len + s.c : Nat) = -(s.c : Int) := by omega
  rw [iterate_advance_down hdir htop le_rfl, hend]

theorem iterate_advance_to_top {k : Nat} {s : State} (hdir : s.dir = .plus) (hlo : -(s.c : Int) ≤ s.off)
    (hk : s.off + k = s.len) : advance^[k] s = { s with off := s.len } := by
  rw [iterate_advance_up hdir hlo hk.le, hk]

/-- In left mode the advance below −C is to LEN again. -/
theorem iterate_advance_left_cycle {s : State} (hmode : s.mode = .left) (hdir : s.dir = .minus)
    (htop : s.off = s.len) : advance^[s.len + s.c + 1] s = s := by
  rw [Function.iterate_succ_apply', iterate_advance_to_bottom hdir htop,
    advance_left_of_beyond (beyondBound_bottom hdir) hmode]
  exact congrArg (fun off => { s with off := off }) htop.symm

/-- In right mode the advance above LEN is to −C. -/
theorem iterate_advance_right_wrap {s : State} (hmode : s.mode = .right) (hdir : s.dir = .plus) (hoff : s.off = 0) :
    advance^[s.len + 1] s = { s with off := -(s.c : Int) } := by
  rw [Function.iterate_succ_apply', iterate_advance_to_top hdir (by omega) (by omega),
    advance_right_of_beyond (beyondBound_top hdir) hmode]
  rfl

/-- In bounce mode a way down and the dwell at −C. -/
theorem iterate_advance_bounce_down {s : State} (hmode : s.mode = .bounce) (hdir : s.dir = .minus)
    (htop : s.off = s.len) : advance^[s.len + s.c + 1] s = { s with off := -(s.c : Int), dir := .plus } := by
  rw [Function.iterate_succ_apply', iterate_advance_to_bottom hdir htop,
    advance_bounce_of_beyond (beyondBound_bottom hdir) hmode, hdir]
  rfl

/-- In bounce mode a way up and the dwell at LEN. -/
theorem iterate_advance_bounce_up {s : State} (hmode : s.mode = .bounce) (hdir : s.dir = .plus)
    (hbottom : s.off = -(s.c : Int)) :
    advance^[s.len + s.c + 1] s = { s with off := s.len, dir := .minus } := by
  rw [Function.iterate_succ_apply', iterate_advance_to_top hdir hbottom.ge (by omega),
    advance_bounce_of_beyond (beyondBound_top hdir) hmode, hdir]
  rfl

/-- In right mode the offsets from −C on, after the wrap. -/
theorem iterate_advance_right_up {k : Nat} {s : State} (hmode : s.mode = .right) (hdir : s.dir = .plus)
    (hoff : s.off = 0) (hk : k ≤ s.len + s.c) :
    advance^[s.len + 1 + k] s = { s with off := -(s.c : Int) + k } := by
  rw [add_comm, Function.iterate_add_apply, iterate_advance_right_wrap hmode hdir hoff]
  exact iterate_advance_up (s := { s with off := -(s.c : Int) }) hdir le_rfl (by dsimp only; omega)

/-- In bounce mode the offsets from −C on, after the way down. -/
theorem iterate_advance_bounce_back {k : Nat} {s : State} (hmode : s.mode = .bounce) (hdir : s.dir = .minus)
    (htop : s.off = s.len) (hk : k ≤ s.len + s.c) :
    advance^[s.len + s.c + 1 + k] s = { s with off := -(s.c : Int) + k, dir := .plus } := by
  rw [add_comm, Function.iterate_add_apply, iterate_advance_bounce_down hmode hdir htop]
  exact iterate_advance_up (s := { s with off := -(s.c : Int), dir := .plus }) rfl le_rfl (by dsimp only; omega)

theorem iterate_advance_right_cycle {s : State} (hmode : s.mode = .right) (hdir : s.dir = .plus)
    (hoff : s.off = 0) : advance^[s.len + s.c + 1] s = s := by
  have hend : -(s.c : Int) + s.c = s.off := by omega
  rw [add_right_comm, iterate_advance_right_up hmode hdir hoff (by omega), hend]

theorem iterate_advance_bounce_cycle {s : State} (hmode : s.mode = .bounce) (hdir : s.dir = .minus)
    (htop : s.off = s.len) : advance^[2 * (s.len + s.c) + 2] s = s := by
  have htwo : 2 * (s.len + s.c) + 2 = (s.len + s.c + 1) + (s.len + s.c + 1) := by omega
  rw [htwo, Function.iterate_add_apply, iterate_advance_bounce_down hmode hdir htop]
  refine (iterate_advance_bounce_up (s := { s with off := -(s.c : Int), dir := .plus }) hmode rfl rfl).trans ?_
  rw [← htop, ← hdir]

/-- Settles O27: steps from the reset are counted in advances, and each mode's advances are known. -/
theorem scrollCyclesReturnToTheReset : Obligations.ScrollCyclesReturnToTheReset := by
  intro s _
  simp only [iterate_scrollStep_scrollReset]
  refine ⟨fun (hmode : (scrollReset s).mode = .left) => ?_, fun (hmode : (scrollReset s).mode = .right) => ?_,
    fun (hmode : (scrollReset s).mode = .bounce) => ?_⟩
  · have hdir : (scrollReset s).dir = .minus := congrArg resetDir hmode
    have htop : (scrollReset s).off = (scrollReset s).len := congrArg (resetOff · s.len) hmode
    exact ⟨fun k hk => congrArg State.off (iterate_advance_down hdir htop hk),
      iterate_advance_left_cycle hmode hdir htop⟩
  · have hdir : (scrollReset s).dir = .plus := congrArg resetDir hmode
    have hzero : (scrollReset s).off = 0 := congrArg (resetOff · s.len) hmode
    refine ⟨fun k (hk : k ≤ (scrollReset s).len) => ?_, fun k hk => ?_,
      iterate_advance_right_cycle hmode hdir hzero⟩
    · rw [iterate_advance_up hdir (by omega) (by omega), hzero, zero_add]
    · have hoff := congrArg State.off (iterate_advance_right_up hmode hdir hzero (Nat.le_add_left_of_le hk))
      exact hoff.trans (neg_add_eq_sub _ _)
  · have hdir : (scrollReset s).dir = .minus := congrArg resetDir hmode
    have htop : (scrollReset s).off = (scrollReset s).len := congrArg (resetOff · s.len) hmode
    refine ⟨fun k hk => congrArg State.off (iterate_advance_down hdir htop hk), fun k hk => ?_,
      iterate_advance_bounce_cycle hmode hdir htop⟩
    have hoff := congrArg State.off (iterate_advance_bounce_back hmode hdir htop hk)
    exact hoff.trans (neg_add_eq_sub _ _)

end Sys2Proof.Machine
end

section
/-! Proofs for the statements of 43_scanout.md: the tick, what starts a pass, its first action and its row steps, the
row-by-row pass against the pass as one function, and what a pass sends after a commit. -/

namespace Sys2Proof.Machine

open Sys2Proof

/-! ## The tick -/

/-- Settles O28: the step is the tick, which writes TICKPEND only. -/
theorem tickOnlyMarksThePendingBit : Obligations.TickOnlyMarksThePendingBit := by
  intro s rest hvalid hq
  simp only [step, hvalid, if_true, scheduledStep, hq, applyMove, tick_eq]

/-! ## The start of a pass -/

/-- A command that ends leaves the block idle (R46). -/
theorem finish_act_idle {todo : List Phase} {s t : State} (h : finish todo s = .next t) : t.act = .idle := by
  induction todo generalizing s with
  | nil => cases h; rfl
  | cons p rest ih =>
    rw [finish_cons, andThen_eq_next] at h
    obtain ⟨u, -, hrest⟩ := h
    exact ih hrest

/-- A frame executed whole leaves the block idle, rejected or not (R46, R215). -/
theorem runFrame_act_idle {f : List Byte} {s t : State} (h : runFrame f s = .next t) : t.act = .idle := by
  unfold runFrame at h
  split at h
  · obtain ⟨e, rfl⟩ | ⟨todo, hf⟩ := exec_cases h
    · rfl
    · exact finish_act_idle hf
  · cases h
    rfl

/-- A frame that starts phase by phase starts no pass. -/
theorem beginFrame_not_scan (f : List Byte) (s : State) (m : Nat) (r : Fin 8) : (beginFrame f s).act ≠ .scan m r := by
  unfold beginFrame begin
  split
  · split <;> simp
  · simp

/-- A command that goes on stays a command or ends. -/
theorem cmdStep_not_scan {k : CmdKind} {todo : List Phase} {s t : State} (h : cmdStep k todo s = .next t) (m : Nat)
    (r : Fin 8) : t.act ≠ .scan m r := by
  cases todo with
  | nil => cases h; simp
  | cons p rest =>
    obtain ⟨-, -, hact⟩ := phaseStep_outputs h
    simp [hact]

/-- Of the block's own steps only the pass start leads into a pass (R177). -/
theorem passStart_of_enters {s t : State} {m : Nat} {r : Fin 8} (eff : OwnEffect s t)
    (hout : ∀ m r, s.act ≠ .scan m r) (hin : t.act = .scan m r) : passReady s = true ∧ t = passStart s := by
  cases eff with
  | pass ready eq => exact ⟨ready, eq⟩
  | wait _ _ _ eq => exact absurd (eq ▸ hin) (hout m r)
  | whole f _ _ eq => exact absurd ((runFrame_act_idle eq).symm.trans hin) (by simp)
  | phased f _ _ eq => exact absurd (eq ▸ hin) (beginFrame_not_scan f s m r)
  | command k todo _ eq => exact absurd hin (cmdStep_not_scan eq m r)
  | row m r hact => exact absurd hact (hout m r)

/-- A step that leads into a pass is the pass start, taken where a pass may start (R177). -/
theorem step_enters_pass {s t : State} {m : Nat} {r : Fin 8} (hstep : step s = .next t)
    (hout : ∀ m r, s.act ≠ .scan m r) (hin : t.act = .scan m r) :
    passReady s = true ∧ ∃ q b, t = passStart { s with sched := q, arb := b } := by
  obtain ⟨-, eff⟩ := step_cases hstep
  cases eff with
  | tick _ _ eq => exact absurd hin (by simpa [eq] using hout m r)
  | byte _ _ _ _ _ eq => exact absurd hin (by simpa [eq] using hout m r)
  | stall _ _ eq => exact absurd hin (by simpa [eq] using hout m r)
  | rst _ _ eq => exact absurd hin (by simp [eq, assertReset, State.resetOf])
  | own q b _ eff =>
    obtain ⟨hready, ht⟩ := passStart_of_enters eff hout hin
    exact ⟨hready, q, b, ht⟩

/-- With nothing scheduled and no frame waiting a pass that may start does (R177). -/
theorem step_of_passReady {s : State} (hvalid : s.cfg.valid = true) (hready : passReady s = true)
    (hframe : s.frame = none) (hq : s.sched = []) : step s = .next (passStart s) := by
  obtain ⟨hact, -⟩ := (passReady_iff s).mp hready
  have hcontested : contested s = false := by simp [contested, hframe]
  simp [step_of_quiet hvalid hq, freeStep, hcontested, ownStep, hact, idleStep, hframe, hready]

/-- Settles O29: only the pass start leads into a pass, and nothing else can happen where no frame waits. -/
theorem passStartsExactlyWhenAllowed : Obligations.PassStartsExactlyWhenAllowed := by
  refine ⟨fun s t hstep hout ⟨m, r, hin⟩ => ?_, fun s hvalid hact hlock htick hframe hq => ?_⟩
  · obtain ⟨hready, q, b, rfl⟩ := step_enters_pass hstep hout hin
    obtain ⟨hact, hlock, htick⟩ := (passReady_iff s).mp hready
    simp [hact, hlock, htick]
  · exact step_of_passReady hvalid ((passReady_iff s).mpr ⟨hact, hlock, htick⟩) hframe hq

/-! ## The first action of a pass -/

/-- Scrolling is active or not, whatever the other registers hold (R159). -/
theorem scrolls_congr {s t : State} (hmode : t.mode = s.mode) (hlen : t.len = s.len) (hn : t.n = s.n) :
    scrolls t = scrolls s := by
  unfold scrolls State.c
  rw [hmode, hlen, hn]

/-- Where scrolling is active, the offset latched is the one the step produced (R178). -/
theorem passOffset_of_scrolls {s : State} (h : scrolls s = true) :
    passOffset s = { scrollStep s with e := (scrollStep s).off } := by
  have hstep : scrolls (scrollStep s) = true := by rw [scrolls_congr (s := s) (by simp) (by simp) (by simp), h]
  simp only [passOffset, h, if_true, effOffset_eq, hstep]

/-- Where the content is still, the offset latched is 0 (R160, R178). -/
theorem passOffset_of_still {s : State} (h : scrolls s = false) : passOffset s = { s with e := 0 } := by
  simp [passOffset, h, effOffset_eq]

/-- Settles O30: the two cases of the first action, scrolling or still. -/
theorem passStartStepsThenLatchesTheOffset : Obligations.PassStartStepsThenLatchesTheOffset := by
  refine fun s => ⟨fun hmode hlong => ?_, fun hstill => ?_⟩
  · have hscrolls : scrolls { s with tickPend := false, act := .scan 1 0 } = true :=
      (scrolls_iff _).mpr ⟨hmode, hlong⟩
    obtain ⟨hoff, -⟩ :=
      scrollStep_congr (s := s) (t := { s with tickPend := false, act := .scan 1 0 }) rfl rfl rfl rfl rfl rfl rfl
    rw [passStart, passOffset_of_scrolls hscrolls, hoff]
  · exact passOffset_of_still ((scrolls_eq_false_iff _).mpr hstill)

/-! ## The row step -/

/-- The row step where the byte of its position is there (R180). -/
theorem rowStep_of_read {s : State} {m : Nat} {r : Fin 8} {d : Byte} (h : fbRead s (scanIndex s.e m r) = some d) :
    rowStep m r s = .next { s with
      trace := s.trace ++ [{ m := m, reg := s.cfg.regRow.get r, d := d }], act := nextScan s.n.toNat m r } := by
  simp only [rowStep, h, emit]

/-- With nothing scheduled a pass in progress goes on (R46, R71). -/
theorem step_of_scan {s : State} {m : Nat} {r : Fin 8} (hvalid : s.cfg.valid = true) (hq : s.sched = [])
    (hact : s.act = .scan m r) : step s = rowStep m r s := by
  have hcontested : contested s = false := by simp [contested, passReady, hact]
  simp [step_of_quiet hvalid hq, freeStep, hcontested, ownStep, hact]

/-- Settles O31: the step is the row step, whose read is given. -/
theorem rowStepEmitsOneRow : Obligations.RowStepEmitsOneRow :=
  fun _ _ _ _ hvalid hact hq hread => (step_of_scan hvalid hq hact).trans (rowStep_of_read hread)

/-! ## The pass row by row -/

/-- ACT before the k-th transaction of a pass, k from 0: its position, or IDLE after the last (R179, R181). -/
def scanAt (n k : Nat) : Act :=
  if k < 8 * n then .scan (k / 8 + 1) ⟨k % 8, Nat.mod_lt k (by decide)⟩ else .idle

/-- What is left to send does not depend on what was sent or on ACT (R180). -/
theorem rowEvents_output (s : State) (trace : List SendWord) (act : Act) (ps : List (Nat × Fin 8)) :
    rowEvents { s with trace := trace, act := act } ps = rowEvents s ps := by
  apply rowEvents_congr <;> rfl

/-- With nothing scheduled the row steps from the k-th position on send the events from there on and end idle. -/
theorem steps_of_scan {s : State} {ws : List SendWord} {k : Nat} (hvalid : s.cfg.valid = true) (hq : s.sched = [])
    (hact : s.act = scanAt s.n.toNat k) (hws : rowEvents s ((passPositions s.n.toNat).drop k) = some ws) :
    steps ws.length s = .next { s with trace := s.trace ++ ws, act := .idle } := by
  induction ws generalizing s k with
  | nil =>
    obtain ⟨hlen, -⟩ := rowEvents_get hws
    rw [List.length_drop, length_passPositions, List.length_nil] at hlen
    have hidle : s.act = .idle := hact.trans (if_neg (by omega))
    rw [List.append_nil, ← hidle]
    rfl
  | cons w ws ih =>
    obtain ⟨hlen, -⟩ := rowEvents_get hws
    rw [List.length_drop, length_passPositions, List.length_cons] at hlen
    have hk : k < 8 * s.n.toNat := by omega
    rw [passPositions_drop _ k hk, rowEvents] at hws
    split at hws
    · rename_i d ws' hd hrest
      cases hws
      rw [List.length_cons, steps, step_of_scan hvalid hq (hact.trans (if_pos hk)), rowStep_of_read hd, andThen_next,
        ih (k := k + 1)]
      · rw [List.append_assoc]
        rfl
      · exact hvalid
      · exact hq
      · exact nextScan_at s.n.toNat k hk
      · exact (rowEvents_output s _ _ _).trans hrest
    · cases hws

/-- What the invariant says of an idle block (R39). -/
theorem Inv.at_idle {s : State} (h : Inv s) (hact : s.act = .idle) : s.lock = false ∧ Settled s := by
  have hok := h.activityOk
  rwa [ActivityOk, hact] at hok

/-- A tick can be pending on an initialised block only, which has a module (R40, R20). -/
theorem Settled.n_pos_of_tickPend {s : State} (h : Settled s) (htick : s.tickPend = true) : 1 ≤ s.n.toNat := by
  apply h.nPositive
  by_contra hi
  obtain ⟨hno, -⟩ := h.uninit (by simpa using hi)
  simp [htick] at hno

/-- Where FB holds exactly FB[1..LEN], a whole pass answers a next state (R182, R222). -/
theorem wholePass_total {s : State} (h : s.fb.map Prod.fst = List.range' 1 s.len) : ∃ t, wholePass s = .next t := by
  obtain ⟨ws, hws⟩ := rowEvents_total (passOffset { s with tickPend := false }) (by simpa using h)
    (passPositions (passOffset { s with tickPend := false }).n.toNat)
  simp only [wholePass, hws]
  exact ⟨_, rfl⟩

/-- The pass start is the first action of the whole pass, with ACT at the first position (R178). -/
theorem passStart_eq (s : State) :
    passStart s = { passOffset { s with tickPend := false } with act := .scan 1 0 } :=
  passOffset_act { s with tickPend := false } (.scan 1 0)

/-- Settles O32: after the pass start the row steps send the events of all positions, which is the whole pass. -/
theorem passIsTheWholePassFunction : Obligations.PassIsTheWholePassFunction := by
  intro s hinv hact htick hframe hq
  obtain ⟨hkeys, -⟩ := hinv.bufferOk
  obtain ⟨hlock, hsettled⟩ := hinv.at_idle hact
  obtain ⟨t, hwhole⟩ := wholePass_total hkeys
  refine ⟨?_, t, hwhole⟩
  obtain ⟨u, ws, hu, hws, rfl⟩ := wholePass_cases hwhole
  have hstart : step s = .next { u with act := .scan 1 0 } := by
    rw [hu, ← passStart_eq]
    exact step_of_passReady hinv.cfgValid ((passReady_iff s).mpr ⟨hact, hlock, htick⟩) hframe hq
  have hn : u.n = s.n := by simp [hu]
  have hfirst : .scan 1 0 = scanAt u.n.toNat 0 := by
    have hpos := hsettled.n_pos_of_tickPend htick
    exact (if_pos (by rw [hn]; omega)).symm
  have hrows := steps_of_scan (s := { u with act := .scan 1 0 }) (k := 0) (by simpa [hu] using hinv.cfgValid)
    (by simpa [hu] using hq) hfirst ((rowEvents_output u u.trace _ _).trans hws)
  obtain ⟨hcount, -⟩ := rowEvents_get hws
  rw [length_passPositions, hn] at hcount
  calc steps (1 + 8 * s.n.toNat) s
    _ = andThen (step s) (steps ws.length) := by rw [Nat.add_comm, ← hcount, steps]
    _ = steps ws.length { u with act := .scan 1 0 } := by rw [hstart, andThen_next]
    _ = wholePass s := hrows.trans hwhole.symm

/-! ## What a whole pass sends and writes -/

/-- Settles O33: the events of a pass are those of its positions, and the k-th position reads index k + 1 + E. -/
theorem passReadsTheWindowInOrder : Obligations.PassReadsTheWindowInOrder := by
  intro s t hpass
  obtain ⟨u, ws, hu, hws, rfl⟩ := wholePass_cases hpass
  have hn : u.n = s.n := by simp [hu]
  have hcfg : u.cfg = s.cfg := by simp [hu]
  obtain ⟨hlen, hget⟩ := rowEvents_get hws
  refine ⟨ws, by simp [hu], by rw [hlen, length_passPositions, hn], fun k hk => ?_⟩
  obtain ⟨d, hd, hw⟩ := hget k _ (passPositions_get _ k (hn ▸ hk))
  have hindex : scanIndex u.e (k / 8 + 1) ⟨k % 8, Nat.mod_lt k (by decide)⟩ = (k : Int) + 1 + u.e := by
    simp only [scanIndex]
    omega
  rw [hindex, fbRead_congr (s := s) (by simp [hu]) (by simp [hu])] at hd
  exact ⟨d, hd, hcfg ▸ hw⟩

/-- Settles O34: only the first action of a pass writes registers, and every event is that of a row. -/
theorem passWritesOnlyScrollStateAndRows : Obligations.PassWritesOnlyScrollStateAndRows := by
  intro s t hpass
  obtain ⟨u, ws, hu, hws, rfl⟩ := wholePass_cases hpass
  have hcfg : u.cfg = s.cfg := by simp [hu]
  refine ⟨?_, ws, by simp [hu], fun w hw => ?_⟩
  · have hoffset := passOffset_eq { s with tickPend := false }
    rw [← hu] at hoffset
    exact congrArg (fun v : State => { v with trace := u.trace ++ ws, act := .idle }) hoffset
  · obtain ⟨p, -, -, -, hreg⟩ := position_of_rowEvents hws hw
    exact ⟨p.2, hcfg ▸ hreg⟩

/-! ## The pass after a commit -/

/-- The byte a content shows at flat index `idx`: its own inside, blank outside (R64). -/
def windowByte (content : List Byte) (idx : Int) : Byte :=
  if 1 ≤ idx then content.getD (idx.toNat - 1) 0 else 0

theorem windowByte_zeros (n : Nat) (idx : Int) : windowByte (zeros n) idx = 0 := by
  unfold windowByte zeros
  split
  · rw [List.getD_eq_getElem?_getD, List.getElem?_replicate]
    split <;> rfl
  · rfl

/-- The unshifted window of a content is the content. -/
theorem range_map_windowByte (content : List Byte) :
    ((List.range content.length).map fun k : Nat => windowByte content ((k : Int) + 1)) = content := by
  apply List.ext_getElem
  · simp
  · intro k _ hk
    simp [windowByte, List.getElem?_eq_getElem hk]

/-- A pass of a still content latches the offset 0 (R160, R178). -/
theorem wholePass_e_of_still {s t : State} (h : wholePass s = .next t) (hstill : scrolls s = false) : t.e = 0 := by
  obtain ⟨u, ws, hu, -, rfl⟩ := wholePass_cases h
  rw [passOffset_of_still (s := { s with tickPend := false }) hstill] at hu
  simp [hu]

/-- A pass over a committed content sends the content's bytes in the window, in order (R179, R184). -/
theorem wholePass_of_content {s : State} {content : List Byte} (hfb : s.fb = Memory.ofContent content)
    (hlen : s.len = content.length) :
    ∃ t ws, wholePass s = .next t ∧ t.trace = s.trace ++ ws ∧
      ws.map SendWord.d = (List.range (8 * s.n.toNat)).map fun k : Nat => windowByte content ((k : Int) + 1 + t.e) := by
  obtain ⟨t, hpass⟩ := wholePass_total (s := s) (by rw [hfb, ofContent_keys, hlen])
  obtain ⟨ws, htrace, hcount, hget⟩ := passReadsTheWindowInOrder s t hpass
  refine ⟨t, ws, hpass, htrace, List.ext_getElem (by simp [hcount]) fun k hk _ => ?_⟩
  obtain ⟨d, hd, hw⟩ := hget k (by simpa [hcount] using hk)
  obtain ⟨_, hw⟩ := List.getElem?_eq_some_iff.mp hw
  have hread : d = windowByte content ((k : Int) + 1 + t.e) :=
    Option.some.inj (hd.symm.trans (fbRead_of_content s content hfb hlen _))
  simp [hw, hread]

/-- The pass of a tick after a commit that was answered OK (R147, R145, R184). -/
theorem wholePass_after_commit {s u : State} {content : List Byte} (h : commit content s = .next u) :
    ∃ v ws, wholePass (tick (respondOk u)) = .next v ∧ v.trace = s.trace ++ ws ∧
      (content.length ≤ s.c → v.e = 0) ∧
      ws.map SendWord.d = (List.range s.c).map fun k : Nat => windowByte content ((k : Int) + 1 + v.e) := by
  obtain ⟨-, hu⟩ := commit_next h
  obtain ⟨v, ws, hpass, htrace, hbytes⟩ := wholePass_of_content (s := tick (respondOk u)) (content := content)
    (by simp [hu]) (by simp [hu])
  refine ⟨v, ws, hpass, by simpa [hu] using htrace, fun hfits => ?_, by simpa [hu, State.c] using hbytes⟩
  exact wholePass_e_of_still hpass ((scrolls_eq_false_iff _).mpr (.inr (by simpa [hu, State.c] using hfits)))

/-- A commit and the response answer a next state where the commit does (R145, R147). -/
theorem commit_answered {content : List Byte} {s t : State}
    (h : andThen (commit content s) (fun u => .next (respondOk u)) = .next t) :
    ∃ u, commit content s = .next u ∧ t = respondOk u := by
  obtain ⟨u, hcommit, hrespond⟩ := andThen_eq_next.mp h
  cases hrespond
  exact ⟨u, hcommit, rfl⟩

/-- CLEAR on an initialised block is a commit and the response (R147). -/
theorem exec_clear_next {s t : State} (hinited : s.inited = true) (h : exec .clear s = .next t) :
    ∃ u, commit (zeros s.c) s = .next u ∧ t = respondOk u := by
  simp only [exec, execClear, checkInited, hinited, if_true] at h
  exact commit_answered h

/-- WRITE of no more than GMAX glyphs on an initialised block is a commit and the response (R145). -/
theorem exec_write_next {rot : Rot} {inv : Bool} {glyphs : List Glyph} {s t : State} (hinited : s.inited = true)
    (hfits : glyphs.length ≤ s.cfg.gmax) (h : exec (.write rot inv (glyphs.map Eight.toList)) s = .next t) :
    ∃ u, commit (compose s.cfg.rotswap rot inv glyphs) s = .next u ∧ t = respondOk u := by
  simp only [exec, execWrite, checkWrite, checkInited, hinited, if_true, List.length_map, hfits, glyphsOf_map] at h
  exact commit_answered h

/-- Settles O38: CLEAR commits zeros, and every byte of their window is 0. -/
theorem passAfterClearIsBlank : Obligations.PassAfterClearIsBlank := by
  intro s t hinited hclear
  obtain ⟨u, hcommit, rfl⟩ := exec_clear_next hinited hclear
  obtain ⟨v, ws, hpass, htrace, -, hbytes⟩ := wholePass_after_commit hcommit
  simp only [windowByte_zeros, List.map_const', List.length_range] at hbytes
  obtain ⟨hcount, hzero⟩ := List.eq_replicate_iff.mp hbytes
  exact ⟨v, ws, hpass, htrace, by simpa [State.c] using hcount, fun w hw => hzero _ (List.mem_map_of_mem hw)⟩

/-- Settles O39: the composed bytes are as many as the columns, so their window is unshifted. -/
theorem writtenGlyphsReachTheDisplay : Obligations.WrittenGlyphsReachTheDisplay := by
  intro rot inv glyphs s t hinited hfits hcount hwrite
  obtain ⟨u, hcommit, rfl⟩ := exec_write_next hinited hfits hwrite
  obtain ⟨v, ws, hpass, htrace, hstill, hbytes⟩ := wholePass_after_commit hcommit
  have hlen : (compose s.cfg.rotswap rot inv glyphs).length = s.c := by rw [length_compose, hcount, State.c]
  refine ⟨v, ws, hpass, htrace, hbytes.trans ?_⟩
  simp only [hstill hlen.le, add_zero, ← hlen, range_map_windowByte]

end Sys2Proof.Machine
end

section
/-! Proofs for the statements of 44_config.md: the words of the spec's examples decoded, and the words the block sends.
Every plan of a command is legal, a legal list of phases sends legal words only, and so does a row step. -/

namespace Sys2Proof

/-- Settles O4: each frame's opcode byte selects its row, whose operand decoder is computed. -/
theorem specWordsDecode : Obligations.SpecWordsDecode :=
  ⟨rfl, rfl, rfl, rfl, rfl, rfl, rfl, rfl⟩

/-! ## The thirteen registers -/

theorem Eight.mem_toList {α : Type} {g : Eight α} {x : α} : x ∈ g.toList ↔ ∃ i, x = g.get i := by
  constructor
  · intro hx
    obtain ⟨k, hk⟩ := List.getElem?_of_mem hx
    obtain ⟨hlt, -⟩ := List.getElem?_eq_some_iff.mp hk
    exact ⟨⟨k, hlt⟩, Option.some.inj (hk.symm.trans (g.toList_getElem? ⟨k, hlt⟩))⟩
  · rintro ⟨i, rfl⟩
    exact List.mem_of_getElem? (g.toList_getElem? i)

/-- The thirteen registers of R196, one by one. -/
theorem Config.mem_registers {p : Config} {reg : Byte} :
    reg ∈ p.registers ↔ (∃ r, reg = p.regRow.get r) ∨ reg = p.regDecode ∨ reg = p.regIntensity ∨
      reg = p.regScanLimit ∨ reg = p.regShutdown ∨ reg = p.regDispTest := by
  simp [Config.registers, Eight.mem_toList]

end Sys2Proof

namespace Sys2Proof.Machine

open Sys2Proof

/-! ## The phases of a command are legal -/

/-- A commit is legal while LOCK is 0, and leaves it 0 (R142). -/
theorem todoLegal_commit (p : Config) {k : CmdKind} (content : List Byte) (rest : List Phase)
    (hk : k.commits = true) : todoLegal p k false (commitPhases content ++ rest) = todoLegal p k false rest := by
  simp [commitPhases, todoLegal, hk]

/-- A commit that is the whole command (R145, R147). -/
theorem todoLegal_commit_only (p : Config) {k : CmdKind} (content : List Byte) (hk : k.commits = true) :
    todoLegal p k false (commitPhases content) = true := by
  simpa [todoLegal] using todoLegal_commit p content [] hk

/-- A broadcast that is the whole command (R200, R202). -/
theorem todoLegal_broadcast_only (p : Config) (k : CmdKind) {n : Nat} {reg : Byte} (d : Byte) (hn : n ≤ p.nmax)
    (hreg : reg ∈ p.registers) : todoLegal p k false (broadcastPhases n reg d) = true := by
  simpa [todoLegal] using todoLegal_broadcast p k [] n reg d hn hreg

/-- INIT's phases are legal for a module count within NMAX: one commit, then five broadcasts (R198). -/
theorem initPhases_legal (p : Config) {n : Byte} (pin ii : Byte) (mm : Mode) (dd : Byte) (hn : n.toNat ≤ p.nmax) :
    todoLegal p .init false (initPhases p n pin ii mm dd) = true := by
  have sends {reg : Byte} (d : Byte) (rest : List Phase) (hreg : reg ∈ p.registers) :
      todoLegal p .init false (broadcastPhases n.toNat reg d ++ rest) = todoLegal p .init false rest :=
    todoLegal_broadcast p .init rest n.toNat reg d hn hreg
  simp only [initPhases, todoLegal, todoLegal_commit p (k := .init) _ _ rfl, Bool.not_false, Bool.true_and,
    List.append_assoc]
  rw [sends, sends, sends, sends]
  · exact todoLegal_broadcast_only p .init _ hn (by simp [Config.mem_registers])
  all_goals simp [Config.mem_registers]

/-- INIT accepts a module count within 1..NMAX only (R218). -/
theorem checkInit_count {nn pp : Option Byte} {ii n pin : Byte} {s : State}
    (h : checkInit nn pp ii s = .ok (n, pin)) : 1 ≤ n.toNat ∧ n.toNat ≤ s.cfg.nmax := by
  unfold checkInit at h
  split at h
  · split at h
    · rename_i hcount
      split at h <;> cases h
      exact hcount
    · cases h
  · cases h

/-- The phases of every command that passes its checks are legal, where N is within NMAX. -/
theorem plan_legal {i : Instr} {s : State} {k : CmdKind} {todo : List Phase} (hn : s.n.toNat ≤ s.cfg.nmax)
    (h : plan i s = .ok (k, todo)) : todoLegal s.cfg k false todo = true := by
  cases i with
  | init nn pp ii mm dd =>
    simp only [plan] at h
    split at h <;> cases h
    rename_i hcheck
    obtain ⟨-, hcount⟩ := checkInit_count hcheck
    exact initPhases_legal s.cfg _ ii mm dd hcount
  | setscroll mm dd =>
    simp only [plan] at h
    split at h <;> cases h
    rfl
  | clear | write rot inv records =>
    simp only [plan] at h
    split at h <;> cases h
    exact todoLegal_commit_only s.cfg _ rfl
  | setint vv | setpwr on =>
    simp only [plan] at h
    split at h <;> cases h
    exact todoLegal_broadcast_only s.cfg _ _ hn (by simp [Config.mem_registers])

/-! ## The words sent are legal -/

/-- Every word sent is one the block may send: the trace's part of the invariant (R109, R196). -/
def TraceLegal (s : State) : Prop := ∀ w ∈ s.trace, w.legal s.cfg = true

/-- Legal words after a legal trace make a legal trace. -/
theorem traceLegal_of_append {s t : State} {ws : List SendWord} (hs : TraceLegal s) (hcfg : t.cfg = s.cfg)
    (htrace : t.trace = s.trace ++ ws) (hws : ∀ w ∈ ws, w.legal s.cfg = true) : TraceLegal t := by
  intro w hw
  rw [htrace, List.mem_append] at hw
  rw [hcfg]
  exact hw.elim (hs w) (hws w)

theorem traceLegal_congr {s t : State} (hs : TraceLegal s) (hcfg : t.cfg = s.cfg) (htrace : t.trace = s.trace) :
    TraceLegal t :=
  traceLegal_of_append hs hcfg (ws := []) (by simpa using htrace) (by simp)

/-- Of legal phases the first sends a legal word or none, and the others are legal from the lock it leaves. -/
theorem todoLegal_uncons {p : Config} {k : CmdKind} {lock : Bool} {ph : Phase} {rest : List Phase}
    (h : todoLegal p k lock (ph :: rest) = true) :
    (∀ w ∈ ph.word.toList, w.legal p = true) ∧ ∃ lock', todoLegal p k lock' rest = true := by
  cases ph <;> simp only [todoLegal, Bool.and_eq_true] at h
  case send w =>
    obtain ⟨⟨-, hw⟩, hrest⟩ := h
    exact ⟨by simpa [Phase.word] using hw, _, hrest⟩
  all_goals exact ⟨by simp [Phase.word], _, h.2⟩

theorem phaseStep_traceLegal {p : Phase} {s t : State} (h : phaseStep p s = .next t)
    (hp : ∀ w ∈ p.word.toList, w.legal s.cfg = true) (hs : TraceLegal s) : TraceLegal t := by
  obtain ⟨htrace, -, -⟩ := phaseStep_outputs h
  obtain ⟨hcfg, -⟩ := phaseStep_keeps_world h
  exact traceLegal_of_append hs hcfg htrace hp

/-- Legal phases run to their end send legal words only. -/
theorem finish_traceLegal {k : CmdKind} {lock : Bool} {todo : List Phase} {s t : State}
    (hlegal : todoLegal s.cfg k lock todo = true) (h : finish todo s = .next t) (hs : TraceLegal s) :
    TraceLegal t := by
  induction todo generalizing s lock with
  | nil => cases h; exact hs
  | cons p rest ih =>
    rw [finish_cons, andThen_eq_next] at h
    obtain ⟨u, hphase, hrest⟩ := h
    obtain ⟨hp, lock', hlegal'⟩ := todoLegal_uncons hlegal
    obtain ⟨hcfg, -⟩ := phaseStep_keeps_world hphase
    exact ih (hcfg ▸ hlegal') hrest (phaseStep_traceLegal hphase hp hs)

/-- A frame run whole: an error sends nothing, and a command's phases are those of its plan. -/
theorem runFrame_traceLegal {f : List Byte} {s t : State} (hn : s.n.toNat ≤ s.cfg.nmax)
    (h : runFrame f s = .next t) (hs : TraceLegal s) : TraceLegal t := by
  cases hdecode : decode f with
  | error r =>
    cases (runFrame_of_rejected ⟨r, hdecode⟩ s).symm.trans h
    exact hs
  | ok i =>
    rw [runFrame_of_decode hdecode] at h
    cases hplan : plan i (takeFrame s) with
    | error e =>
      cases (exec_of_plan_error hplan).symm.trans h
      exact hs
    | ok kp =>
      exact finish_traceLegal (s := takeFrame s) (plan_legal hn hplan) ((exec_of_plan hplan).symm.trans h) hs

/-- A frame's start phase by phase sends nothing yet. -/
theorem beginFrame_outputs (f : List Byte) (s : State) :
    (beginFrame f s).cfg = s.cfg ∧ (beginFrame f s).trace = s.trace := by
  unfold beginFrame
  split
  · unfold begin
    split <;> exact ⟨rfl, rfl⟩
  · exact ⟨rfl, rfl⟩

theorem cmdStep_traceLegal {k : CmdKind} {todo : List Phase} {s t : State}
    (hlegal : todoLegal s.cfg k s.lock todo = true) (h : cmdStep k todo s = .next t) (hs : TraceLegal s) :
    TraceLegal t := by
  cases todo with
  | nil => cases h; exact hs
  | cons p rest =>
    obtain ⟨hp, -⟩ := todoLegal_uncons hlegal
    exact phaseStep_traceLegal (s := { s with act := .cmd k rest }) h hp hs

/-- A row step sends to a row register of its module (R180). -/
theorem rowStep_traceLegal {m : Nat} {r : Fin 8} {s t : State} (h1 : 1 ≤ m) (hm : m ≤ s.cfg.nmax)
    (h : rowStep m r s = .next t) (hs : TraceLegal s) : TraceLegal t := by
  obtain ⟨d, -, rfl⟩ := rowStep_next h
  refine traceLegal_of_append hs rfl rfl fun w hw => ?_
  obtain rfl := List.mem_singleton.mp hw
  exact (legal_iff _ _).mpr ⟨h1, hm, row_mem_registers _ r⟩

/-- In a command the phases to do are legal from the lock as it is. -/
theorem Inv.todo_legal {s : State} (h : Inv s) {k : CmdKind} {todo : List Phase} (hact : s.act = .cmd k todo) :
    todoLegal s.cfg k s.lock todo = true := by
  have hok := h.activityOk
  simp only [ActivityOk, hact] at hok
  obtain ⟨-, -, hlegal, -⟩ := hok
  exact hlegal

/-- The block's own step sends legal words only. -/
theorem ownEffect_traceLegal {s t : State} {q : List Move} {b : Nat} (hinv : Inv s)
    (eff : OwnEffect { s with sched := q, arb := b } t) : TraceLegal t := by
  have hs : TraceLegal { s with sched := q, arb := b } := hinv.traceOk
  cases eff with
  | wait _ _ _ eq => exact eq ▸ hs
  | pass _ eq => exact traceLegal_congr hs (by simp [eq]) (by simp [eq])
  | whole f hact _ eq =>
    obtain ⟨-, hsettled⟩ := hinv.at_idle hact
    refine runFrame_traceLegal ?_ eq hs
    exact hsettled.nLeNmax
  | phased f _ _ eq =>
    obtain ⟨hcfg, htrace⟩ := beginFrame_outputs f { s with sched := q, arb := b }
    exact eq ▸ traceLegal_congr hs hcfg htrace
  | command k todo hact eq =>
    refine cmdStep_traceLegal ?_ eq hs
    exact hinv.todo_legal hact
  | row m r hact eq =>
    obtain ⟨h1, hm, -⟩ := hinv.scanning hact
    have hsettled : Settled s := hinv.settled fun k todo hcmd => nomatch hact.symm.trans hcmd
    refine rowStep_traceLegal h1 ?_ eq hs
    exact hm.trans hsettled.nLeNmax

/-- Every step keeps the trace legal: the moves of the world send nothing, and the reset empties the trace. -/
theorem step_traceLegal {s t : State} (hinv : Inv s) (hstep : step s = .next t) : TraceLegal t := by
  have hs : TraceLegal s := hinv.traceOk
  obtain ⟨-, eff⟩ := step_cases hstep
  cases eff with
  | tick _ _ eq => exact traceLegal_congr hs (by simp [eq]) (by simp [eq])
  | byte _ _ _ _ _ eq => exact traceLegal_congr hs (by simp [eq]) (by simp [eq])
  | stall _ _ eq => exact traceLegal_congr hs (by simp [eq]) (by simp [eq])
  | rst _ _ eq => subst eq; exact List.forall_mem_nil _
  | own q b _ eff => exact ownEffect_traceLegal hinv eff

/-- No step changes the parameters (R42). -/
theorem cfg_kept (p : Config) : KeptByUpdates fun s => s.cfg = p where
  world _ _ _ _ _ _ _ hs := hs
  passOffset s hs := by simpa using hs
  phase _ _ _ h hs := by
    obtain ⟨hcfg, -⟩ := phaseStep_keeps_world h
    exact hcfg.trans hs
  respondOk _ hs := hs
  raise _ _ hs := hs

theorem step_cfg {s t : State} (hstep : step s = .next t) : t.cfg = s.cfg := by
  obtain ht | ⟨rest, -, rfl⟩ := (cfg_kept s.cfg).keeps_step hstep rfl
  · exact ht
  · rfl

/-- Settles O58: a legal word names one of the thirteen registers, none of which is the no-op's where the
parameters are valid. -/
theorem noopRegisterIsNeverSent : Obligations.NoopRegisterIsNeverSent := by
  intro s t hinv hstep w hw
  obtain ⟨-, -, hreg⟩ := (legal_iff t.cfg w).mp (step_traceLegal hinv hstep w hw)
  have hvalid : t.cfg.valid = true := (step_cfg hstep).symm ▸ hinv.cfgValid
  exact ⟨valid_not_noop hvalid hreg, Config.mem_registers.mp hreg⟩

end Sys2Proof.Machine
end

section
/-! Proofs for the statements of 60_exceptions.md: what taking an error writes, which check of a command fails first,
and that only the reset ends the run. Each check is said once, branch by branch; a command that fails its check raises
that check's error. -/

namespace Sys2Proof.Machine

open Sys2Proof

/-! ## Taking an error -/

/-- Every error has a bit of its own in ERRFLAGS (R34). -/
theorem errFlag_errMask (e e' : Err) : errFlag e' (errMask e) = decide (e' = e) := by
  cases e <;> cases e' <;> rfl

/-- Setting the flag of `e` sets that flag and leaves the other five (R214). -/
theorem errFlag_setErrFlag_eq (e e' : Err) (f : BitVec 6) :
    errFlag e' (setErrFlag e f) = (errFlag e' f || decide (e' = e)) :=
  BitVec.getLsbD_or.trans (congrArg (errFlag e' f || ·) (errFlag_errMask e e'))

/-- Settles O8: the frame of `raise` is its definition, its flag is set by its own mask, and the numbers are R211's. -/
theorem raiseRecordsTheErrorAndNothingElse : Obligations.RaiseRecordsTheErrorAndNothingElse :=
  fun e s => ⟨rfl, fun e' => errFlag_setErrFlag_eq e e' s.errFlags, by cases e <;> rfl⟩

/-! ## The checks, branch by branch -/

theorem checkInited_of_inited {s : State} (h : s.inited = true) : checkInited s = .ok () := if_pos h

theorem checkInited_of_uninit {s : State} (h : s.inited = false) : checkInited s = .error .notInitialized :=
  if_neg (by simp [h])

theorem checkIntensity_of_high {v : Byte} (h : 15 < v.toNat) : checkIntensity v = .error .outOfRangeIntensity :=
  if_neg (by omega)

/-- An absent mandatory operand is the first thing INIT finds, whatever the others hold (R218). -/
theorem checkInit_of_missing {nn pp : Option Byte} (h : nn = none ∨ pp = none) (ii : Byte) (s : State) :
    checkInit nn pp ii s = .error .configurationError := by
  obtain rfl | rfl := h
  · rfl
  · cases nn <;> rfl

/-- INIT looks at the count before the intensity (R217). -/
theorem checkInit_of_badCount {n : Byte} {s : State} (h : n.toNat = 0 ∨ s.cfg.nmax < n.toNat) (p ii : Byte) :
    checkInit (some n) (some p) ii s = .error .configurationError :=
  if_neg (by omega)

theorem checkInit_of_badIntensity {n ii : Byte} {s : State} (h1 : 1 ≤ n.toNat) (hmax : n.toNat ≤ s.cfg.nmax)
    (hii : 15 < ii.toNat) (p : Byte) : checkInit (some n) (some p) ii s = .error .outOfRangeIntensity := by
  simp only [checkInit, h1, hmax, and_self, if_true, checkIntensity_of_high hii]

/-- One record of another length than 8 spoils all the records (R220). -/
theorem glyphsOf_eq_none {records : List (List Byte)} (h : ∃ r ∈ records, r.length ≠ 8) : glyphsOf records = none := by
  rw [← Option.not_isSome_iff_eq_none, glyphsOf_isSome]
  simpa using h

/-- WRITE looks at the number of records before their lengths (R217). -/
theorem checkWrite_of_tooLong {records : List (List Byte)} {s : State} (hinited : s.inited = true)
    (h : s.cfg.gmax < records.length) : checkWrite records s = .error .contentTooLong := by
  simp only [checkWrite, checkInited_of_inited hinited, Nat.not_le.mpr h, if_false]

theorem checkWrite_of_badRecord {records : List (List Byte)} {s : State} (hinited : s.inited = true)
    (hfits : records.length ≤ s.cfg.gmax) (h : ∃ r ∈ records, r.length ≠ 8) :
    checkWrite records s = .error .invalidGlyph := by
  simp only [checkWrite, checkInited_of_inited hinited, hfits, if_true, glyphsOf_eq_none h]

theorem checkSetint_of_high {v : Byte} {s : State} (hinited : s.inited = true) (h : 15 < v.toNat) :
    checkSetint v s = .error .outOfRangeIntensity := by
  simp only [checkSetint, checkInited_of_inited hinited, checkIntensity_of_high h]

/-! ## The error a command reports -/

/-- INITED is the first check of every command that makes it (R216, R217). -/
theorem plan_of_uninit {i : Instr} {s : State} (hinit : ∀ nn pp ii mm dd, i ≠ .init nn pp ii mm dd)
    (h : s.inited = false) : plan i s = .error .notInitialized := by
  cases i with
  | init nn pp ii mm dd => exact absurd rfl (hinit nn pp ii mm dd)
  | write rot inv records => simp only [plan, checkWrite, checkInited_of_uninit h]
  | setint vv => simp only [plan, checkSetint, checkInited_of_uninit h]
  | _ => simp only [plan, checkInited_of_uninit h]

theorem exec_init_of_error {nn pp : Option Byte} {ii : Byte} {s : State} {e : Err}
    (h : checkInit nn pp ii s = .error e) (mm : Mode) (dd : Byte) :
    exec (.init nn pp ii mm dd) s = .next (raise e s) :=
  exec_of_plan_error (by simp only [plan, h])

theorem exec_write_of_error {records : List (List Byte)} {s : State} {e : Err} (h : checkWrite records s = .error e)
    (rot : Rot) (inv : Bool) : exec (.write rot inv records) s = .next (raise e s) :=
  exec_of_plan_error (by simp only [plan, h])

theorem exec_setint_of_error {vv : Byte} {s : State} {e : Err} (h : checkSetint vv s = .error e) :
    exec (.setint vv) s = .next (raise e s) :=
  exec_of_plan_error (by simp only [plan, h])

/-- Settles O9: each clause is one branch of a check, and the command raises the error of that branch. -/
theorem firstFailingCheckIsReported : Obligations.FirstFailingCheckIsReported := by
  intro s
  refine ⟨?illegal, ?uninit, ?missing, ?count, ?intensity, ?tooLong, ?badRecord, ?setint⟩
  case illegal => exact fun f r h => runFrame_of_rejected ⟨r, h⟩ s
  case uninit => exact fun i hinit h => exec_of_plan_error (plan_of_uninit hinit h)
  case missing => exact fun nn pp ii mm dd h => exec_init_of_error (checkInit_of_missing h ii s) mm dd
  case count => exact fun n p ii mm dd h => exec_init_of_error (checkInit_of_badCount h p ii) mm dd
  case intensity =>
    exact fun n p ii mm dd h1 hmax hii => exec_init_of_error (checkInit_of_badIntensity h1 hmax hii p) mm dd
  case tooLong =>
    exact fun rot inv records hinited h => exec_write_of_error (checkWrite_of_tooLong hinited h) rot inv
  case badRecord =>
    exact fun rot inv records hinited hfits h =>
      exec_write_of_error (checkWrite_of_badRecord hinited hfits h) rot inv
  case setint => exact fun vv hinited h => exec_setint_of_error (checkSetint_of_high hinited h)

/-! ## The end of the run -/

/-- Settles O54: no update of a step clears INITED but the reset, and the reset keeps the parameters too. -/
theorem runModeIsLeftByResetOnly : Obligations.RunModeIsLeftByResetOnly := by
  intro s t hstep
  refine ⟨step_cfg hstep, fun hnr hinited => ?_⟩
  obtain ht | ⟨rest, hq, -⟩ := inited_kept.keeps_step hstep hinited
  · exact ht
  · exact absurd hnr (not_notReset hq)

end Sys2Proof.Machine
end

section
/-! Proofs for the statements of 70_reset_and_hazards.md: the reset input and the state it gives, the block INIT leaves
initialised, the end of an activity left to itself, and the pass a pending tick comes to. -/

namespace Sys2Proof.Machine

open Sys2Proof

/-! ## Reset -/

/-- Settles O43: the step is the reset input, which reads the parameters, the schedule and the choice counter only. -/
theorem resetInputAbandonsTheActivity : Obligations.ResetInputAbandonsTheActivity := by
  intro s rest hvalid hq
  simp only [step, hvalid, if_true, scheduledStep, hq, applyMove, assertReset]

/-- After reset LEN is 0, so no index lies in the buffer (R64, R241). -/
theorem fbRead_resetOf (p : Config) (idx : Int) : fbRead (State.resetOf p) idx = some 0 :=
  fbRead_outside (by simp only [State.resetOf]; omega)

/-- Settles O44: the registers and pins are those of the reset state, and its buffer reads blank. -/
theorem resetValuesAreTheSpecs : Obligations.ResetValuesAreTheSpecs := by
  intro p s
  exact ⟨rfl, rfl, rfl, rfl, rfl, rfl, rfl, rfl, rfl, rfl, rfl, rfl, rfl, rfl, rfl, rfl, rfl, fbRead_resetOf p, rfl⟩

/-! ## The initialised block -/

theorem checkInit_of_legal {n ii : Byte} {s : State} (h1 : 1 ≤ n.toNat) (hmax : n.toNat ≤ s.cfg.nmax)
    (hii : ii.toNat ≤ 15) (p : Byte) : checkInit (some n) (some p) ii s = .ok (n, p) := by
  simp only [checkInit, h1, hmax, and_self, if_true, checkIntensity, hii]

/-- INIT's broadcasts as one list of words, register by register, module 1 first within each (R195, R198). -/
theorem initBroadcasts_eq (ii : Byte) (s : State) :
    initBroadcasts ii s = { s with
      trace := s.trace ++
        ([(s.cfg.regScanLimit, Config.valScanLimit), (s.cfg.regDecode, s.cfg.valDecodeOff),
          (s.cfg.regDispTest, s.cfg.valTestOff), (s.cfg.regIntensity, ii),
          (s.cfg.regShutdown, s.cfg.valPwrOn)] : List (Byte × Byte)).flatMap
            fun x => broadcastWords s.n.toNat x.1 x.2 } := by
  simp [initBroadcasts, broadcast]

/-- Settles O19: the operands pass the checks and the zeros fit, so INIT is its commit, its start and its broadcasts. -/
theorem initInitialisesTheBlock : Obligations.InitInitialisesTheBlock := by
  intro n p ii mm dd s hvalid h1 hmax hii
  have hfits : (zeros (8 * n.toNat)).length ≤ (configure n p mm dd s).cfg.lmax := by
    simpa using valid_lmax hvalid hmax
  simp only [exec, execInit, checkInit_of_legal h1 hmax hii, commit_fits _ _ hfits, andThen_next, initBroadcasts_eq,
    length_zeros]
  cases mm <;> rfl

/-! ## The phases of a command, run to their end -/

/-- The phases after the first are legal from the lock it leaves (R142). -/
theorem phaseStep_todoLegal {p : Config} {k : CmdKind} {ph : Phase} {rest : List Phase} {s t : State}
    (hlegal : todoLegal p k s.lock (ph :: rest) = true) (h : phaseStep ph s = .next t) :
    todoLegal p k t.lock rest = true := by
  cases ph <;> simp only [todoLegal, Bool.and_eq_true] at hlegal
  case replace content =>
    simp only [phaseStep, replaceBuffer] at h
    split at h <;> cases h
    exact hlegal.2
  all_goals cases h; exact hlegal.2

/-- Legal phases run to their end leave LOCK released (R39, R142). -/
theorem finish_unlocked {p : Config} {k : CmdKind} {todo : List Phase} {s t : State}
    (hlegal : todoLegal p k s.lock todo = true) (h : finish todo s = .next t) : t.lock = false := by
  induction todo generalizing s with
  | nil => cases h; simpa [todoLegal] using hlegal
  | cons ph rest ih =>
    rw [finish_cons, andThen_eq_next] at h
    obtain ⟨u, hphase, hrest⟩ := h
    exact ih (phaseStep_todoLegal hlegal hphase) hrest

/-- Of the phases only INIT's start writes TICKPEND (R198). -/
theorem phaseStep_tickPend {p : Phase} {s t : State} (h : phaseStep p s = .next t) :
    t.tickPend = if p = .start then false else s.tickPend := by
  cases p with
  | replace content =>
    simp only [phaseStep, replaceBuffer] at h
    split at h <;> cases h
    simp
  | _ => cases h; simp

/-- No phase touches the frame at the port. -/
theorem phaseStep_frame {p : Phase} {s t : State} (h : phaseStep p s = .next t) : t.frame = s.frame := by
  cases p with
  | replace content =>
    simp only [phaseStep, replaceBuffer] at h
    split at h <;> cases h
    rfl
  | _ => cases h; simp

/-- Phases run to their end drop a pending tick exactly where INIT's start is among them (R198). -/
theorem finish_tickPend {todo : List Phase} {s t : State} (h : finish todo s = .next t) :
    t.tickPend = if .start ∈ todo then false else s.tickPend := by
  induction todo generalizing s with
  | nil => cases h; simp
  | cons p rest ih =>
    rw [finish_cons, andThen_eq_next] at h
    obtain ⟨u, hphase, hrest⟩ := h
    rw [ih hrest, phaseStep_tickPend hphase]
    by_cases hp : p = .start <;> simp [hp, eq_comm]

/-- Phases run to their end leave the world around the command as it is. -/
theorem finish_keeps_world {todo : List Phase} {s t : State} (h : finish todo s = .next t) :
    t.cfg = s.cfg ∧ t.sched = s.sched ∧ t.frame = s.frame := by
  induction todo generalizing s with
  | nil => cases h; simp
  | cons p rest ih =>
    rw [finish_cons, andThen_eq_next] at h
    obtain ⟨u, hphase, hrest⟩ := h
    obtain ⟨hcfg, hsched⟩ := phaseStep_keeps_world hphase
    rw [← hcfg, ← hsched, ← phaseStep_frame hphase]
    exact ih hrest

/-- Every content among the phases fits the buffer (R140). -/
def ContentsFit (p : Config) (todo : List Phase) : Prop :=
  ∀ content, .replace content ∈ todo → content.length ≤ p.lmax

/-- A phase stops the model only where its content does not fit (log 11). -/
theorem phaseStep_total {p : Phase} {s : State} (h : ∀ content, p = .replace content → content.length ≤ s.cfg.lmax) :
    ∃ t, phaseStep p s = .next t := by
  cases p with
  | replace content => exact ⟨_, if_pos (h content rfl)⟩
  | _ => exact ⟨_, rfl⟩

theorem finish_total {todo : List Phase} {s : State} (h : ContentsFit s.cfg todo) : ∃ t, finish todo s = .next t := by
  induction todo generalizing s with
  | nil => exact ⟨_, rfl⟩
  | cons p rest ih =>
    obtain ⟨u, hphase⟩ := phaseStep_total (p := p) (s := s) fun content hp => h content (by simp [hp])
    obtain ⟨hcfg, -⟩ := phaseStep_keeps_world hphase
    rw [finish_cons, hphase]
    exact ih fun content hc => hcfg ▸ h content (by simp [hc])

/-! ## The end of an activity -/

/-- Outside a command LOCK is 0 (R39). -/
theorem Inv.unlocked {s : State} (h : Inv s) (hact : ∀ k todo, s.act ≠ .cmd k todo) : s.lock = false := by
  by_contra hlock
  obtain ⟨k, rest, -, ⟨content, hcmd⟩ | hcmd | hcmd⟩ := lockIsHeldOnlyInsideACommit s h (by simpa using hlock)
  all_goals exact hact k _ hcmd

/-- What the invariant says of a command in progress: no frame waits, and its phases come to an end. -/
theorem Inv.commanding {s : State} (h : Inv s) {k : CmdKind} {todo : List Phase} (hact : s.act = .cmd k todo) :
    s.frame = none ∧ ∃ t, finish todo s = .next t := by
  have hok := h.activityOk
  simp only [ActivityOk, hact] at hok
  obtain ⟨hframe, -, -, t, hfinish, -⟩ := hok
  exact ⟨hframe, t, hfinish⟩

/-- With nothing scheduled a pass in progress takes one step for each row left and ends idle (R181, R256). -/
theorem steps_of_pass {s : State} {m : Nat} {r : Fin 8} (hinv : Inv s) (hq : s.sched = [])
    (hact : s.act = .scan m r) :
    ∃ ws, steps (8 * (s.n.toNat - m) + (8 - r.val)) s = .next { s with trace := s.trace ++ ws, act := .idle } := by
  obtain ⟨h1, hm, -⟩ := hinv.scanning hact
  obtain ⟨hkeys, -⟩ := hinv.bufferOk
  have hr := r.isLt
  obtain ⟨ws, hws⟩ := rowEvents_total s hkeys ((passPositions s.n.toNat).drop ((m - 1) * 8 + r.val))
  obtain ⟨hlen, -⟩ := rowEvents_get hws
  rw [List.length_drop, length_passPositions] at hlen
  have hat : s.act = scanAt s.n.toNat ((m - 1) * 8 + r.val) := by
    rw [hact, scanAt, if_pos (by omega)]
    congr 1
    · omega
    · ext
      simp only
      omega
  have hcount : 8 * (s.n.toNat - m) + (8 - r.val) = ws.length := by omega
  exact ⟨ws, hcount ▸ steps_of_scan hinv.cfgValid hq hat hws⟩

/-- Settles O55: a command in progress comes to where its phases end, a pass in progress to its last row. -/
theorem activitiesEnd : Obligations.ActivitiesEnd := by
  refine fun s hinv hq => ⟨fun k todo hact => ?_, fun m r hact => ?_⟩
  · obtain ⟨-, t, hfinish⟩ := hinv.commanding hact
    exact ⟨t, (steps_of_command hinv.cfgValid hq hact).trans hfinish, finish_act_idle hfinish,
      finish_unlocked (hinv.todo_legal hact) hfinish, finish_responses hfinish⟩
  · obtain ⟨ws, hsteps⟩ := steps_of_pass hinv hq hact
    exact ⟨_, hsteps, rfl⟩

/-! ## A frame run whole comes to an end -/

theorem checkWrite_fits {records : List (List Byte)} {glyphs : List Glyph} {s : State}
    (h : checkWrite records s = .ok glyphs) : glyphs.length ≤ s.cfg.gmax := by
  unfold checkWrite at h
  split at h
  · cases h
  · split at h
    · rename_i hcount
      split at h <;> cases h
      rename_i hglyphs
      rw [glyphsOf_eq_some] at hglyphs
      simpa [hglyphs] using hcount
    · cases h

theorem broadcastPhases_no_content {n : Nat} {reg d : Byte} {content : List Byte} :
    .replace content ∉ broadcastPhases n reg d := by
  simp [broadcastPhases]

theorem replace_mem_commitPhases {content content' : List Byte} :
    .replace content' ∈ commitPhases content ↔ content' = content := by
  simp [commitPhases]

/-- The contents of a command that passes its checks fit the buffer (R7, R140). -/
theorem plan_contentsFit {i : Instr} {s : State} {k : CmdKind} {todo : List Phase} (hvalid : s.cfg.valid = true)
    (hn : s.n.toNat ≤ s.cfg.nmax) (h : plan i s = .ok (k, todo)) : ContentsFit s.cfg todo := by
  intro content hmem
  cases i with
  | init nn pp ii mm dd =>
    simp only [plan] at h
    split at h <;> cases h
    rename_i hcheck
    obtain ⟨-, hcount⟩ := checkInit_count hcheck
    simp only [initPhases, List.mem_cons, List.mem_append, broadcastPhases_no_content, replace_mem_commitPhases,
      reduceCtorEq, false_or, or_false] at hmem
    subst hmem
    simpa using valid_lmax hvalid hcount
  | setscroll mm dd =>
    simp only [plan] at h
    split at h <;> cases h
    simp at hmem
  | clear =>
    simp only [plan] at h
    split at h <;> cases h
    obtain rfl := replace_mem_commitPhases.mp hmem
    simpa [State.c] using valid_lmax hvalid hn
  | write rot inv records =>
    simp only [plan] at h
    split at h <;> cases h
    rename_i hcheck
    obtain rfl := replace_mem_commitPhases.mp hmem
    simpa [Config.lmax] using checkWrite_fits hcheck
  | setint vv | setpwr on =>
    simp only [plan] at h
    split at h <;> cases h
    exact absurd hmem broadcastPhases_no_content

/-- Only INIT has the start among its phases (R198). -/
theorem init_of_start_mem_plan {i : Instr} {s : State} {k : CmdKind} {todo : List Phase}
    (h : plan i s = .ok (k, todo)) (hmem : .start ∈ todo) : ∃ nn pp ii mm dd, i = .init nn pp ii mm dd := by
  have hwrites : commandWrites i .run = true := by
    by_contra hi
    exact absurd (plan_writes (g := .run) h (by simpa using hi) hmem) (by decide)
  cases i with
  | init nn pp ii mm dd => exact ⟨nn, pp, ii, mm, dd, rfl⟩
  | _ => cases hwrites

/-- An idle block with nothing scheduled, no frame waiting and LOCK released: only a pass can start. -/
structure AtRest (s : State) : Prop where
  valid : s.cfg.valid = true
  quiet : s.sched = []
  idle : s.act = .idle
  unlocked : s.lock = false
  noFrame : s.frame = none

/-- Legal phases run to their end leave the block at rest, with nothing scheduled and no frame waiting. -/
theorem finish_atRest {p : Config} {k : CmdKind} {todo : List Phase} {s t : State} (hvalid : s.cfg.valid = true)
    (hq : s.sched = []) (hframe : s.frame = none) (hlegal : todoLegal p k s.lock todo = true)
    (h : finish todo s = .next t) : AtRest t := by
  obtain ⟨hcfg, hsched, hframe'⟩ := finish_keeps_world h
  exact ⟨hcfg ▸ hvalid, hsched.trans hq, finish_act_idle h, finish_unlocked hlegal h, hframe'.trans hframe⟩

/-- The frame waiting is an INIT. -/
def InitWaits (s : State) : Prop := ∃ f nn pp ii mm dd, s.frame = some f ∧ decode f = .ok (.init nn pp ii mm dd)

/-- A frame run whole leaves the block at rest, and only an INIT can have dropped a pending tick (R198, R214). -/
theorem runFrame_atRest {f : List Byte} {s : State} (hvalid : s.cfg.valid = true) (hq : s.sched = [])
    (hlock : s.lock = false) (hn : s.n.toNat ≤ s.cfg.nmax) (hframe : s.frame = some f) :
    ∃ t, runFrame f s = .next t ∧ AtRest t ∧ (t.tickPend = s.tickPend ∨ InitWaits s) := by
  have raised (e : Err) : AtRest (raise e (takeFrame s)) := ⟨hvalid, hq, rfl, hlock, rfl⟩
  cases hdecode : decode f with
  | error r => exact ⟨_, runFrame_of_rejected ⟨r, hdecode⟩ s, raised _, .inl rfl⟩
  | ok i =>
    rw [runFrame_of_decode hdecode]
    cases hplan : plan i (takeFrame s) with
    | error e => exact ⟨_, exec_of_plan_error hplan, raised e, .inl rfl⟩
    | ok kp =>
      obtain ⟨k, todo⟩ := kp
      obtain ⟨t, hfinish⟩ := finish_total (plan_contentsFit (s := takeFrame s) hvalid hn hplan)
      have hlegal : todoLegal s.cfg k (takeFrame s).lock todo = true :=
        hlock.symm ▸ plan_legal (s := takeFrame s) hn hplan
      refine ⟨t, (exec_of_plan hplan).trans hfinish, finish_atRest (s := takeFrame s) hvalid hq rfl hlegal hfinish, ?_⟩
      by_cases hstart : .start ∈ todo
      · obtain ⟨nn, pp, ii, mm, dd, rfl⟩ := init_of_start_mem_plan hplan hstart
        exact .inr ⟨f, nn, pp, ii, mm, dd, hframe, hdecode⟩
      · exact .inl ((finish_tickPend hfinish).trans (if_neg hstart))

/-! ## A pending tick is served -/

/-- Within `k` steps no tick is pending any more: a pass has just started, or `dropped` holds. -/
def TickServedWithin (k : Nat) (dropped : Prop) (s : State) : Prop :=
  ∃ j t, steps j s = .next t ∧ t.tickPend = false ∧ j ≤ k ∧ (t.act = .scan 1 0 ∨ dropped)

theorem TickServedWithin.mono {j k : Nat} {dropped : Prop} {s : State} (h : TickServedWithin j dropped s)
    (hjk : j ≤ k) : TickServedWithin k dropped s := by
  obtain ⟨i, t, hsteps, htick, hi, hend⟩ := h
  exact ⟨i, t, hsteps, htick, hi.trans hjk, hend⟩

theorem steps_add {j : Nat} {s u : State} (h : steps j s = .next u) (k : Nat) : steps (j + k) s = steps k u := by
  induction j generalizing s with
  | zero => cases h; rw [Nat.zero_add]
  | succ j ih =>
    rw [steps, andThen_eq_next] at h
    obtain ⟨v, hstep, hrest⟩ := h
    rw [Nat.succ_add, steps, hstep, andThen_next, ih hrest]

theorem steps_one (s : State) : steps 1 s = step s := by
  simp only [steps]
  cases step s <;> rfl

/-- What comes after `j` steps comes `j` steps later. -/
theorem tickServed_of_steps {j k : Nat} {dropped : Prop} {s u : State} (h : steps j s = .next u)
    (hu : TickServedWithin k dropped u) : TickServedWithin (k + j) dropped s := by
  obtain ⟨i, t, hsteps, htick, hi, hend⟩ := hu
  exact ⟨j + i, t, (steps_add h i).trans hsteps, htick, by omega, hend⟩

/-- The pass start serves the tick (R177). -/
theorem tickServed_of_passStart {dropped : Prop} {s u : State} (h : step s = .next (passStart u)) :
    TickServedWithin 1 dropped s :=
  ⟨1, passStart u, (steps_one s).trans h, by simp, le_rfl, .inl (by simp)⟩

/-- At rest a tick that is still pending starts a pass. -/
theorem AtRest.tickServed {dropped : Prop} {s : State} (h : AtRest s) (hdropped : s.tickPend = true ∨ dropped) :
    TickServedWithin 1 dropped s := by
  cases htick : s.tickPend with
  | true =>
    have hready : passReady s = true := (passReady_iff s).mpr ⟨h.idle, h.unlocked, htick⟩
    exact tickServed_of_passStart (step_of_passReady h.valid hready h.noFrame h.quiet)
  | false => exact ⟨0, s, rfl, htick, Nat.zero_le 1, .inr (hdropped.resolve_left (by simp [htick]))⟩

/-- An idle block comes to the pass within two steps: the frame waiting runs before it at most once (R76, R225). -/
theorem tickServed_of_idle {dropped : Prop} {s : State} (hvalid : s.cfg.valid = true) (hq : s.sched = [])
    (hact : s.act = .idle) (hlock : s.lock = false) (htick : s.tickPend = true) (hn : s.n.toNat ≤ s.cfg.nmax)
    (hinit : InitWaits s → dropped) : TickServedWithin 2 dropped s := by
  cases hframe : s.frame with
  | none =>
    have hrest : AtRest s := ⟨hvalid, hq, hact, hlock, hframe⟩
    exact (hrest.tickServed (.inl htick)).mono (by decide)
  | some f =>
    obtain ⟨-, -, hfree⟩ := eitherOperationMayStart s f hvalid hact hlock htick hframe
    obtain hstep | hstep := hfree hq
    · obtain ⟨t, hrun, hrest, hkept⟩ := runFrame_atRest (s := { s with arb := s.arb + 1 }) hvalid hq hlock hn hframe
      have hdropped : t.tickPend = true ∨ dropped := hkept.imp (·.trans htick) hinit
      exact tickServed_of_steps ((steps_one s).trans (hstep.trans hrun)) (hrest.tickServed hdropped)
    · exact (tickServed_of_passStart hstep).mono (by decide)

/-- Settles O59: a command in progress leaves the block at rest, a pass leaves it idle with at most one frame at the
port. -/
theorem pendingTickIsServed : Obligations.PendingTickIsServed := by
  intro s hinv hq htick
  cases hact : s.act with
  | idle =>
    obtain ⟨hlock, hsettled⟩ := hinv.at_idle hact
    exact tickServed_of_idle hinv.cfgValid hq hact hlock htick hsettled.nLeNmax .inr
  | cmd k todo =>
    obtain ⟨hframe, t, hfinish⟩ := hinv.commanding hact
    have hrest : AtRest t := finish_atRest hinv.cfgValid hq hframe (hinv.todo_legal hact) hfinish
    have hsteps : steps (todo.length + 1) s = .next t := (steps_of_command hinv.cfgValid hq hact).trans hfinish
    have hbound : 1 + (todo.length + 1) ≤ 2 + (todo.length + 1) := by omega
    refine (tickServed_of_steps hsteps (hrest.tickServed ?_)).mono hbound
    by_cases hstart : .start ∈ todo
    · exact .inr (.inl ⟨k, todo, rfl, hstart⟩)
    · exact .inl ((finish_tickPend hfinish).trans ((if_neg hstart).trans htick))
  | scan m r =>
    obtain ⟨ws, hsteps⟩ := steps_of_pass hinv hq hact
    have hnotCmd : ∀ k todo, s.act ≠ .cmd k todo := by simp [hact]
    have hsettled : Settled s := hinv.settled hnotCmd
    exact tickServed_of_steps hsteps
      (tickServed_of_idle hinv.cfgValid hq rfl (hinv.unlocked hnotCmd) htick hsettled.nLeNmax .inr)

end Sys2Proof.Machine
end

section
/-! Proofs for the statements about the command port and the commands' meanings, and for the invariant: it holds after
reset, every step keeps it, and from it the machine always steps. -/

namespace Sys2Proof

/-! ## Decoding an encoding -/

/-- Only INIT with both mandatory operands can hold optional ones; without them they are at their defaults (R95). -/
theorem Instr.initOperandsOk_cases {nn pp : Option Byte} {ii : Byte} {mm : Mode} {dd : Byte}
    (h : Instr.initOperandsOk nn pp ii mm dd = true) :
    (∃ n p, nn = some n ∧ pp = some p) ∨ pp = none ∧ ii = 1 ∧ mm = .off ∧ dd = 0 := by
  cases pp with
  | none => exact .inr ⟨rfl, by simpa [Instr.initOperandsOk, and_assoc] using h⟩
  | some p =>
    cases nn with
    | none => simp [Instr.initOperandsOk] at h
    | some n => exact .inl ⟨n, p, rfl, rfl⟩

theorem decode_encode_init {nn pp : Option Byte} {ii : Byte} {mm : Mode} {dd : Byte}
    (h : Instr.initOperandsOk nn pp ii mm dd = true) :
    decode (encode (.init nn pp ii mm dd)) = .ok (.init nn pp ii mm dd) := by
  obtain ⟨n, p, rfl, rfl⟩ | ⟨rfl, rfl, rfl, rfl⟩ := Instr.initOperandsOk_cases h
  · simp [encode, decode, decodeInit, modeOf_modeByte]
  · cases nn <;> rfl

/-- The fields of WRITE's opcode byte and its records read back (R98). -/
theorem decode_encode_write (rot : Rot) (inv : Bool) {records : List (List Byte)}
    (h : Instr.recordsOk records = true) :
    decode (encode (.write rot inv records)) = .ok (.write rot inv records) := by
  obtain ⟨hcount, hlengths⟩ := (recordsOk_iff records).mp h
  obtain ⟨-, -, -, hrow, hrot, hinv⟩ := writeOpcode_facts rot inv
  rw [encode, decode_writeRow hrow]
  simp only [decodeWrite, hrot, toNat_lengthByte _ hcount, parseRecords_encode records hlengths, hinv]

/-- Settles O1: each command's opcode byte selects its own row, whose operand decoder undoes the encoder. -/
theorem decodeOfEncodeIsTheCommand : Obligations.DecodeOfEncodeIsTheCommand := by
  intro i hwf
  cases i with
  | init nn pp ii mm dd => exact decode_encode_init hwf
  | setscroll mm dd => simp [encode, decode, decodeSetscroll, modeOf_modeByte]
  | clear => rfl
  | write rot inv records => exact decode_encode_write rot inv hwf
  | setint vv => rfl
  | setpwr p => cases p <;> rfl

end Sys2Proof

namespace Sys2Proof.Machine

open Sys2Proof

/-! ## A byte offered at the port -/

/-- A byte offered to a ready port is transferred, and the block does nothing else (R91). -/
theorem step_of_byte_ready {s : State} {b : Byte} {last : Bool} {rest : List Move} (hvalid : s.cfg.valid = true)
    (hq : s.sched = .byte b last :: rest) (hready : cmdReady s = true) :
    step s = .next (receive b last { s with sched := rest }) := by
  have hready' : cmdReady { s with sched := rest } = true := hready
  simp only [step, hvalid, if_true, scheduledStep, hq, applyMove, offerByte, hready']

/-- A byte offered to a port that is not ready stays offered, and the block takes a step of its own (R248). -/
theorem step_of_byte_busy {s : State} {b : Byte} {last : Bool} {rest : List Move} (hvalid : s.cfg.valid = true)
    (hq : s.sched = .byte b last :: rest) (hbusy : cmdReady s = false) : step s = freeStep s := by
  have hbusy' : cmdReady { s with sched := rest } = false := hbusy
  simp only [step, hvalid, if_true, scheduledStep, hq, applyMove, offerByte, hbusy', Bool.false_eq_true, if_false]
  rw [← hq]

/-- Settles O6, by induction on the bytes before the last: each leaves the port ready for the next. -/
theorem frameIsReceivedByteByByte : Obligations.FrameIsReceivedByteByByte := by
  intro s f b rest hvalid hact hframe hq
  have hready : cmdReady s = true := (cmdReady_iff s).mpr ⟨hframe, hact.imp_right And.right⟩
  induction f generalizing s with
  | nil =>
    rw [List.length_nil, Nat.zero_add, steps_one, step_of_byte_ready hvalid hq hready]
    simp [receive]
  | cons x f ih =>
    have hact' : s.act = .idle ∨ (∃ m r, s.act = .scan m r) ∧ s.rx ++ [x] ≠ [] :=
      hact.imp_right fun h => ⟨h.1, by simp⟩
    have hready' : cmdReady { s with rx := s.rx ++ [x] } = true :=
      (cmdReady_iff _).mpr ⟨hframe, hact'.imp_right And.right⟩
    rw [List.length_cons, steps, step_of_byte_ready hvalid hq hready, andThen_next]
    have hrest := ih (receive x false { s with sched := f.map (fun y => .byte y false) ++ .byte b true :: rest })
      hvalid hact' hframe rfl hready'
    simpa [receive] using hrest

/-- A busy block goes on with its activity: nothing can start beside it (R75, R226). -/
theorem freeStep_of_busy {s : State} (hbusy : s.act ≠ .idle) (c : Choice) : freeStep s = ownStep c s := by
  have hcontested : contested s = false := by simp [contested, passReady, hbusy]
  rw [freeStep, hcontested]
  cases hact : s.act with
  | idle => exact absurd hact hbusy
  | cmd k todo | scan m r => simp [ownStep, hact]

/-- Settles O7: the port is not ready, so the step is the block's own, which goes on with the activity. -/
theorem busyBlockMakesTheHostWait : Obligations.BusyBlockMakesTheHostWait := by
  intro s b last rest hvalid hport hq
  have hstep (hbusy : s.act ≠ .idle) : step s = ownStep .command s := by
    have hnotReady : cmdReady s = false := by
      rw [← Bool.not_eq_true, cmdReady_iff]
      tauto
    rw [step_of_byte_busy hvalid hq hnotReady, freeStep_of_busy hbusy]
  refine ⟨fun k todo hact => ?_, fun m r hact => ?_⟩
  · rw [hstep (by simp [hact]), ownStep, hact]
  · rw [hstep (by simp [hact]), ownStep, hact]

/-! ## The meanings of the commands -/

theorem checkWrite_of_glyphs {glyphs : List Glyph} {s : State} (hinited : s.inited = true)
    (hfits : glyphs.length ≤ s.cfg.gmax) : checkWrite (glyphs.map Eight.toList) s = .ok glyphs := by
  simp only [checkWrite, checkInited_of_inited hinited, List.length_map, hfits, if_true, glyphsOf_map]

/-- Settles O16: the glyphs pass the checks and their bytes fit, so WRITE is the commit of these and the response. -/
theorem writeCommitsTheComposedGlyphs : Obligations.WriteCommitsTheComposedGlyphs := by
  intro rot inv glyphs s hinited hfits
  have hcommit : (compose s.cfg.rotswap rot inv glyphs).length ≤ s.cfg.lmax := by
    rw [length_compose, Config.lmax]
    omega
  simp only [exec, execWrite, checkWrite_of_glyphs hinited hfits, commit_fits _ s hcommit, andThen_next, length_compose,
    respondOk]

/-- Settles O17: C zero bytes fit the buffer where N is within NMAX, so CLEAR is their commit and the response. -/
theorem clearCommitsBlankColumns : Obligations.ClearCommitsBlankColumns := by
  intro s hinited hvalid hn
  have hcommit : (zeros s.c).length ≤ s.cfg.lmax := by simpa [State.c] using valid_lmax hvalid hn
  simp only [exec, execClear, checkInited_of_inited hinited, commit_fits _ s hcommit, andThen_next, length_zeros]
  rfl

/-- Settles O18, by the mode. -/
theorem setscrollReplacesTheScrollState : Obligations.SetscrollReplacesTheScrollState := by
  intro mm dd s hinited
  simp only [exec, execSetscroll, checkInited_of_inited hinited]
  cases mm <;> rfl

theorem checkSetint_of_legal {v : Byte} {s : State} (hinited : s.inited = true) (h : v.toNat ≤ 15) :
    checkSetint v s = .ok () := by
  simp only [checkSetint, checkInited_of_inited hinited, checkIntensity, h, if_true]

/-- Settles O20: the intensity passes the checks, so SETINT is its broadcast and the response. -/
theorem setintBroadcastsTheIntensity : Obligations.SetintBroadcastsTheIntensity := by
  intro vv s hinited hvv
  simp only [exec, execSetint, checkSetint_of_legal hinited hvv, broadcast, broadcastWords, respondOk]

/-- Settles O21: on an initialised block SETPWR is the broadcast of the power byte and the response. -/
theorem setpwrBroadcastsThePowerByte : Obligations.SetpwrBroadcastsThePowerByte := by
  intro p s hinited
  simp only [exec, execSetpwr, checkInited_of_inited hinited, broadcast, broadcastWords, respondOk, powerByte]

theorem finish_errFlags {todo : List Phase} {s t : State} (h : finish todo s = .next t) : t.errFlags = s.errFlags := by
  induction todo generalizing s with
  | nil => cases h; rfl
  | cons p rest ih =>
    rw [finish_cons, andThen_eq_next] at h
    obtain ⟨u, hphase, hrest⟩ := h
    rw [ih hrest, phaseStep_errFlags hphase]

/-- Settles O10: a command raises one error or is its phases and the response, and no phase writes ERRFLAGS. -/
theorem commandIsAllOrNothing : Obligations.CommandIsAllOrNothing := by
  intro i s t hexec
  obtain ⟨e, rfl⟩ | ⟨todo, hfinish⟩ := exec_cases hexec
  · exact .inr ⟨e, rfl⟩
  · exact .inl ⟨finish_responses hfinish, finish_errFlags hfinish, finish_act_idle hfinish⟩

/-! ## Settled registers -/

/-- The activity, the schedule, the port and the choice counter do not matter to the registers, and a tick may be
marked on an initialised block (R40). -/
theorem Settled.world {s : State} (h : Settled s) (a : Act) (q : List Move) (b : Nat) (r : List Byte)
    (f : Option (List Byte)) {tp : Bool} (htick : tp = s.tickPend ∨ s.inited = true) :
    Settled { s with act := a, sched := q, arb := b, rx := r, frame := f, tickPend := tp } := by
  refine settled_congr h rfl rfl rfl rfl rfl rfl rfl rfl rfl fun hi => ?_
  obtain rfl | hinited := htick
  · exact (h.uninit hi).1
  · exact absurd (hinited.symm.trans hi) (by decide)

/-- An error writes no register but ERRFLAGS and ACT (R214). -/
theorem Settled.raise {s : State} (h : Settled s) (e : Err) : Settled (raise e s) :=
  settled_congr h rfl rfl rfl rfl rfl rfl rfl rfl rfl fun hi => (h.uninit hi).1

/-- A scroll reset on an initialised block with whole blocks of content settles the registers (R157, R35 to R38). -/
theorem settled_of_scrollReset {s : State} (hinited : s.inited = true) (hpos : 1 ≤ s.n.toNat)
    (hmax : s.n.toNat ≤ s.cfg.nmax) (hlen : s.len % 8 = 0) (hoff : s.off = resetOff s.mode s.len)
    (hdir : s.dir = resetDir s.mode) (hcnt : s.cnt = s.delay) : Settled s where
  nLeNmax := hmax
  nPositive _ := hpos
  offBounds := hoff ▸ resetOff_bounds s.mode s.len s.c
  cntBounds := hcnt ▸ ⟨le_rfl, id⟩
  dirAgrees := by
    rw [hdir, hoff]
    cases s.mode <;> simp [DirAgrees, resetDir, resetOff]
  lenMultiple := hlen
  uninit hi := absurd (hinited.symm.trans hi) (by decide)

/-- A command other than INIT passes its checks on an initialised block only (R216). -/
theorem plan_inited {i : Instr} {s : State} {kp : CmdKind × List Phase}
    (hinit : ∀ nn pp ii mm dd, i ≠ .init nn pp ii mm dd) (h : plan i s = .ok kp) : s.inited = true := by
  by_contra hi
  cases (plan_of_uninit hinit (by simpa using hi)).symm.trans h

/-- A commit of whole blocks that is the whole command settles the registers (R145, R147). -/
theorem Settled.finish_commitPhases {content : List Byte} {s t : State} (h : Settled s) (hinited : s.inited = true)
    (hlen : content.length % 8 = 0) (hf : finish (commitPhases content) s = .next t) : Settled t := by
  rw [← List.append_nil (commitPhases content), finish_commit, andThen_eq_next] at hf
  obtain ⟨u, hcommit, hrespond⟩ := hf
  obtain ⟨-, rfl⟩ := commit_next hcommit
  cases hrespond
  exact settled_of_scrollReset hinited (h.nPositive hinited) h.nLeNmax hlen rfl rfl rfl

/-- A broadcast writes no register (R200, R202). -/
theorem Settled.finish_broadcastPhases {n : Nat} {reg d : Byte} {s t : State} (h : Settled s)
    (hf : finish (broadcastPhases n reg d) s = .next t) : Settled t := by
  rw [← List.append_nil (broadcastPhases n reg d), finish_broadcast] at hf
  cases hf
  exact settled_congr h rfl rfl rfl rfl rfl rfl rfl rfl rfl fun hi => (h.uninit hi).1

/-- A command that passes its checks ends with the registers settled. -/
theorem Settled.finish_plan {i : Instr} {s t : State} {k : CmdKind} {todo : List Phase} (h : Settled s)
    (hplan : plan i s = .ok (k, todo)) (hf : finish todo s = .next t) : Settled t := by
  cases i with
  | init nn pp ii mm dd =>
    have hexec := (exec_of_plan hplan).trans hf
    simp only [plan] at hplan
    split at hplan <;> cases hplan
    rename_i n pin hcheck
    obtain ⟨hpos, hmax⟩ := checkInit_count hcheck
    simp only [exec, execInit, hcheck, andThen_eq_next] at hexec
    obtain ⟨u, hcommit, hrespond⟩ := hexec
    obtain ⟨-, rfl⟩ := commit_next hcommit
    cases hrespond
    exact settled_of_scrollReset rfl hpos hmax (by simp) rfl rfl rfl
  | setscroll mm dd =>
    have hinited : s.inited = true := plan_inited (by simp) hplan
    simp only [plan] at hplan
    split at hplan <;> cases hplan
    cases hf
    exact settled_of_scrollReset hinited (h.nPositive hinited) h.nLeNmax h.lenMultiple rfl rfl rfl
  | clear | write rot inv records =>
    have hinited : s.inited = true := plan_inited (by simp) hplan
    simp only [plan] at hplan
    split at hplan <;> cases hplan
    exact h.finish_commitPhases hinited (by simp [State.c]) hf
  | setint vv | setpwr on =>
    simp only [plan] at hplan
    split at hplan <;> cases hplan
    exact h.finish_broadcastPhases hf

/-- The scroll step keeps DIR as its mode has it (R37): only a bounce turns it. -/
theorem scrollStep_dirAgrees {s : State} (hmode : s.mode ≠ .off) (h : DirAgrees s.mode s.dir s.off) :
    DirAgrees s.mode (scrollStep s).dir (scrollStep s).off := by
  rw [scrollStep_dir]
  cases hm : s.mode with
  | off => exact absurd hm hmode
  | left | right => simpa [DirAgrees, hm] using h
  | bounce =>
    rw [hm] at h
    split
    · obtain hd | hd := h
      · exact .inr (congrArg Dir.neg hd)
      · exact .inl (congrArg Dir.neg hd)
    · exact h

/-- The scroll step keeps the countdown within its bounds (R36): it counts down to 1 and reloads. -/
theorem scrollStep_cntBounds {s : State} (h : s.cnt.toNat ≤ s.delay.toNat ∧ (s.delay ≠ 0 → s.cnt ≠ 0)) :
    (scrollStep s).cnt.toNat ≤ s.delay.toNat ∧ (s.delay ≠ 0 → (scrollStep s).cnt ≠ 0) := by
  rw [scrollStep_cnt]
  split
  · exact ⟨le_rfl, id⟩
  · obtain ⟨hle, -⟩ := h
    exact ⟨by bv_omega, fun _ => by bv_omega⟩

theorem Settled.scrollStep {s : State} (h : Settled s) (hscrolls : scrolls s = true) : Settled (scrollStep s) := by
  obtain ⟨hmode, hlong⟩ := (scrolls_iff s).mp hscrolls
  have hinited : s.inited = true := by
    by_contra hi
    obtain ⟨-, hlen, -⟩ := h.uninit (by simpa using hi)
    omega
  constructor
  case offBounds => simpa [State.c] using scrollStep_offBounds h.offBounds
  case cntBounds => simpa using scrollStep_cntBounds h.cntBounds
  case dirAgrees => simpa using scrollStep_dirAgrees hmode h.dirAgrees
  case nLeNmax => simpa using h.nLeNmax
  case nPositive => simpa using h.nPositive
  case lenMultiple => simpa using h.lenMultiple
  case uninit => simp [hinited]

/-- The first action of a pass keeps the registers settled (R178). -/
theorem Settled.passOffset {s : State} (h : Settled s) : Settled (passOffset s) := by
  have latched {u : State} (hu : Settled u) : Settled { u with e := effOffset u } :=
    settled_congr hu rfl rfl rfl rfl rfl rfl rfl rfl rfl fun hi => (hu.uninit hi).1
  unfold Machine.passOffset
  split
  · exact latched (h.scrollStep ‹_›)
  · exact latched h

theorem passOffset_e (s : State) : (passOffset s).e = effOffset (passOffset s) := rfl

/-! ## The activity -/

theorem activityOk_of_idle {s : State} (hact : s.act = .idle) (hlock : s.lock = false) (h : Settled s) :
    ActivityOk s := by
  rw [ActivityOk, hact]
  exact ⟨hlock, h⟩

theorem activityOk_of_scan {s : State} {m : Nat} {r : Fin 8} (hact : s.act = .scan m r) (hlock : s.lock = false)
    (h : Settled s) (hinited : s.inited = true) (h1 : 1 ≤ m) (hm : m ≤ s.n.toNat) (he : s.e = effOffset s) :
    ActivityOk s := by
  rw [ActivityOk, hact]
  exact ⟨hlock, h, hinited, h1, hm, he⟩

theorem activityOk_of_cmd {s t : State} {k : CmdKind} {todo : List Phase} (hact : s.act = .cmd k todo)
    (hframe : s.frame = none) (hrx : s.rx = []) (hlegal : todoLegal s.cfg k s.lock todo = true)
    (hfinish : finish todo s = .next t) (h : Settled t) : ActivityOk s := by
  rw [ActivityOk, hact]
  exact ⟨hframe, hrx, hlegal, t, hfinish, h⟩

theorem Inv.at_cmd {s : State} (h : Inv s) {k : CmdKind} {todo : List Phase} (hact : s.act = .cmd k todo) :
    s.frame = none ∧ s.rx = [] ∧ todoLegal s.cfg k s.lock todo = true ∧
      ∃ t, finish todo s = .next t ∧ Settled t := by
  have hok := h.activityOk
  rwa [ActivityOk, hact] at hok

theorem Inv.at_scan {s : State} (h : Inv s) {m : Nat} {r : Fin 8} (hact : s.act = .scan m r) :
    s.lock = false ∧ Settled s ∧ s.inited = true ∧ 1 ≤ m ∧ m ≤ s.n.toNat ∧ s.e = effOffset s := by
  have hok := h.activityOk
  rwa [ActivityOk, hact] at hok

/-- The world around a command in progress moves: it still ends settled, for a tick is pending afterwards only where
one was before, or the block is initialised (R40, R198). -/
theorem finish_world_settled {todo : List Phase} {s t : State} (a : Act) (q : List Move) (b : Nat) (r : List Byte)
    {tp : Bool} (htick : tp = s.tickPend ∨ s.inited = true) (hfinish : finish todo s = .next t) (h : Settled t) :
    ∃ u, finish todo { s with act := a, sched := q, arb := b, rx := r, tickPend := tp } = .next u ∧ Settled u := by
  obtain ⟨tp', hfinish', hpend⟩ := finish_world todo s t a q b r tp hfinish
  obtain ⟨hkeeps, -⟩ := finish_keeps todo s t hfinish
  refine ⟨_, hfinish', settled_congr h rfl rfl rfl rfl rfl rfl rfl rfl rfl fun hi => ?_⟩
  obtain ⟨rfl, hpend⟩ | ⟨rfl, -⟩ := hpend
  · obtain rfl | hinited := htick
    · exact hpend.symm.trans (h.uninit hi).1
    · exact absurd ((hkeeps hinited).symm.trans hi) (by decide)
  · rfl

/-- The moves of the world keep the invariant: the port, the schedule, the choice counter and a pending tick, as far
as a second frame begins only where none waits, the port stands inside a command, and only an initialised block marks a
tick. -/
theorem Inv.world {s : State} (h : Inv s) (q : List Move) (b : Nat) (r : List Byte) (f : Option (List Byte)) {tp : Bool}
    (hport : f.isSome = true → r = []) (hcmd : ∀ k todo, s.act = .cmd k todo → f = s.frame ∧ r = s.rx)
    (htick : tp = s.tickPend ∨ s.inited = true) :
    Inv { s with sched := q, arb := b, rx := r, frame := f, tickPend := tp } := by
  refine ⟨h.cfgValid, h.bufferOk, hport, h.traceOk, ?_⟩
  cases hact : s.act with
  | idle =>
    obtain ⟨hlock, hs⟩ := h.at_idle hact
    exact activityOk_of_idle rfl hlock (hs.world _ q b r f htick)
  | scan m i =>
    obtain ⟨hlock, hs, hinited, h1, hm, he⟩ := h.at_scan hact
    exact activityOk_of_scan rfl hlock (hs.world _ q b r f htick) hinited h1 hm he
  | cmd k todo =>
    obtain ⟨hframe, hrx, hlegal, t, hfinish, ht⟩ := h.at_cmd hact
    obtain ⟨rfl, rfl⟩ := hcmd k todo hact
    obtain ⟨u, hfinish', hu⟩ := finish_world_settled (.cmd k todo) q b s.rx htick hfinish ht
    exact activityOk_of_cmd rfl hframe hrx hlegal hfinish' hu

/-- The schedule and the choice counter are the model's own (log 5, 6). -/
theorem Inv.sched {s : State} (h : Inv s) (q : List Move) (b : Nat) : Inv { s with sched := q, arb := b } :=
  h.world q b s.rx s.frame h.portOk (fun _ _ _ => ⟨rfl, rfl⟩) (.inl rfl)

theorem Inv.tick {s : State} (h : Inv s) : Inv (tick s) := by
  rw [tick_eq]
  refine h.world s.sched s.arb s.rx s.frame h.portOk (fun _ _ _ => ⟨rfl, rfl⟩) ?_
  cases hi : s.inited with
  | true => exact .inr rfl
  | false => exact .inl rfl

/-- A byte is transferred to a ready port only, so where no frame waits, and never inside a command (R77, R91). -/
theorem Inv.receive {s : State} (h : Inv s) (b : Byte) (last : Bool) (hready : cmdReady s = true) :
    Inv (receive b last s) := by
  obtain ⟨hframe, hact⟩ := (cmdReady_iff s).mp hready
  rw [receive_eq]
  refine h.world s.sched s.arb _ _ ?_ (fun k todo hcmd => ?_) (.inl rfl)
  · cases last <;> simp [hframe]
  · obtain ⟨-, hrx, -⟩ := h.at_cmd hcmd
    simp [hcmd, hrx] at hact

/-! ## The block's own step -/

/-- What running a frame whole can do: one error, or the phases of its command and the response (R215, R217). -/
theorem runFrame_cases {f : List Byte} {s t : State} (h : runFrame f s = .next t) :
    (∃ e, t = raise e (takeFrame s)) ∨
      ∃ i k todo, plan i (takeFrame s) = .ok (k, todo) ∧ finish todo (takeFrame s) = .next t := by
  unfold runFrame at h
  split at h
  · rename_i i _
    cases hplan : plan i (takeFrame s) with
    | error e =>
      cases (exec_of_plan_error hplan).symm.trans h
      exact .inl ⟨e, rfl⟩
    | ok kp => exact .inr ⟨i, kp.1, kp.2, hplan, (exec_of_plan hplan).symm.trans h⟩
  · cases h
    exact .inl ⟨_, rfl⟩

/-- What starting a frame phase by phase can do: one error, or a command with its phases to do (R46). -/
theorem beginFrame_cases (f : List Byte) (s : State) :
    (∃ e, beginFrame f s = raise e (takeFrame s)) ∨
      ∃ i k todo, plan i (takeFrame s) = .ok (k, todo) ∧
        beginFrame f s = { takeFrame s with act := .cmd k todo } := by
  unfold beginFrame
  split
  · rename_i i _
    unfold begin
    split
    · exact .inl ⟨_, rfl⟩
    · rename_i hplan
      exact .inr ⟨i, _, _, hplan, rfl⟩
  · exact .inl ⟨_, rfl⟩

/-- No phase touches the port. -/
theorem phaseStep_rx {p : Phase} {s t : State} (h : phaseStep p s = .next t) : t.rx = s.rx := by
  cases p with
  | replace content =>
    simp only [phaseStep, replaceBuffer] at h
    split at h <;> cases h
    rfl
  | _ => cases h; simp

theorem cmdStep_port {k : CmdKind} {todo : List Phase} {s t : State} (h : cmdStep k todo s = .next t) :
    t.frame = s.frame ∧ t.rx = s.rx := by
  cases todo with
  | nil => cases h; exact ⟨rfl, rfl⟩
  | cons p rest =>
    have hphase : phaseStep p { s with act := .cmd k rest } = .next t := h
    have hframe := phaseStep_frame hphase
    have hrx := phaseStep_rx hphase
    exact ⟨hframe, hrx⟩

/-- The block's own step takes the waiting frame or leaves the port as it is (R90). -/
theorem OwnEffect.port {s t : State} (eff : OwnEffect s t) : t.frame = none ∨ t.frame = s.frame ∧ t.rx = s.rx := by
  cases eff with
  | wait _ _ _ eq => exact .inr (eq ▸ ⟨rfl, rfl⟩)
  | pass _ eq => exact .inr (by simp [eq])
  | whole f _ _ eq =>
    obtain ⟨e, rfl⟩ | ⟨i, k, todo, -, hfinish⟩ := runFrame_cases eq
    · exact .inl rfl
    · obtain ⟨-, -, hframe⟩ := finish_keeps_world hfinish
      exact .inl hframe
  | phased f _ _ eq =>
    obtain ⟨e, hbegin⟩ | ⟨i, k, todo, -, hbegin⟩ := beginFrame_cases f s
    · exact .inl (by rw [eq, hbegin]; rfl)
    · exact .inl (by rw [eq, hbegin]; rfl)
  | command k todo _ eq => exact .inr (cmdStep_port eq)
  | row m r _ eq =>
    obtain ⟨d, -, rfl⟩ := rowStep_next eq
    exact .inr ⟨rfl, rfl⟩

/-- A pass that starts is at its first position, and has latched the effective offset (R178). -/
theorem passStart_activityOk {s : State} (h : Inv s) (hready : passReady s = true) : ActivityOk (passStart s) := by
  obtain ⟨hact, hlock, htick⟩ := (passReady_iff s).mp hready
  obtain ⟨-, hs⟩ := h.at_idle hact
  have hinited : s.inited = true := by
    by_contra hi
    obtain ⟨hno, -⟩ := hs.uninit (by simpa using hi)
    simp [htick] at hno
  have hstart : Settled (passStart s) :=
    (hs.world (.scan 1 0) s.sched s.arb s.rx s.frame (tp := false) (.inr hinited)).passOffset
  exact activityOk_of_scan (m := 1) (r := 0) (by simp) (by simpa using hlock) hstart (by simpa using hinited) le_rfl
    (by simpa using hs.n_pos_of_tickPend htick) (passOffset_e _)

/-- A frame run whole from an idle block leaves it idle and settled (R39). -/
theorem runFrame_activityOk {f : List Byte} {s t : State} (h : Inv s) (hact : s.act = .idle)
    (hrun : runFrame f s = .next t) : ActivityOk t := by
  obtain ⟨hlock, hs⟩ := h.at_idle hact
  have htaken : Settled (takeFrame s) := hs.world s.act s.sched s.arb s.rx none (.inl rfl)
  obtain ⟨e, rfl⟩ | ⟨i, k, todo, hplan, hfinish⟩ := runFrame_cases hrun
  · exact activityOk_of_idle rfl hlock (htaken.raise e)
  · have hlegal : todoLegal s.cfg k (takeFrame s).lock todo = true := hlock.symm ▸ plan_legal htaken.nLeNmax hplan
    exact activityOk_of_idle (finish_act_idle hfinish) (finish_unlocked hlegal hfinish)
      (htaken.finish_plan hplan hfinish)

/-- A frame started phase by phase leaves a command whose phases are legal and end settled (R142). -/
theorem beginFrame_activityOk {f : List Byte} {s : State} (h : Inv s) (hact : s.act = .idle)
    (hframe : s.frame = some f) : ActivityOk (beginFrame f s) := by
  obtain ⟨hlock, hs⟩ := h.at_idle hact
  have htaken : Settled (takeFrame s) := hs.world s.act s.sched s.arb s.rx none (.inl rfl)
  obtain ⟨e, hbegin⟩ | ⟨i, k, todo, hplan, hbegin⟩ := beginFrame_cases f s
  · rw [hbegin]
    exact activityOk_of_idle rfl hlock (htaken.raise e)
  · rw [hbegin]
    obtain ⟨t, hfinish⟩ := finish_total (plan_contentsFit (s := takeFrame s) h.cfgValid htaken.nLeNmax hplan)
    have hlegal : todoLegal s.cfg k s.lock todo = true := hlock.symm ▸ plan_legal htaken.nLeNmax hplan
    exact activityOk_of_cmd rfl rfl (h.portOk (by simp [hframe])) hlegal ((finish_act _ _ _).trans hfinish)
      (htaken.finish_plan hplan hfinish)

/-- A command that goes on keeps what it needs: the phases left are legal and end where all of them did. -/
theorem cmdStep_activityOk {k : CmdKind} {todo : List Phase} {s t : State} (h : Inv s) (hact : s.act = .cmd k todo)
    (hstep : cmdStep k todo s = .next t) : ActivityOk t := by
  obtain ⟨hframe, hrx, hlegal, u, hfinish, hu⟩ := h.at_cmd hact
  obtain ⟨hframe', hrx'⟩ := cmdStep_port hstep
  cases todo with
  | nil =>
    cases hstep
    cases hfinish
    exact activityOk_of_idle rfl (by simpa [todoLegal] using hlegal) hu
  | cons p rest =>
    have hphase : phaseStep p { s with act := .cmd k rest } = .next t := hstep
    obtain ⟨hcfg, -⟩ := phaseStep_keeps_world hphase
    obtain ⟨-, -, hact'⟩ := phaseStep_outputs hphase
    have hrest : finish rest t = .next u := by
      rwa [← finish_act (p :: rest) s (.cmd k rest), finish_cons, hphase] at hfinish
    exact activityOk_of_cmd hact' (hframe'.trans hframe) (hrx'.trans hrx)
      (hcfg ▸ phaseStep_todoLegal (s := { s with act := .cmd k rest }) hlegal hphase) hrest hu

/-- A row step moves to the next position or ends the pass (R180, R181). -/
theorem rowStep_activityOk {m : Nat} {r : Fin 8} {s t : State} (h : Inv s) (hact : s.act = .scan m r)
    (hstep : rowStep m r s = .next t) : ActivityOk t := by
  obtain ⟨hlock, hs, hinited, h1, hm, he⟩ := h.at_scan hact
  obtain ⟨d, -, rfl⟩ := rowStep_next hstep
  have hs' (a : Act) (ws : List SendWord) : Settled { s with trace := ws, act := a } :=
    settled_congr hs rfl rfl rfl rfl rfl rfl rfl rfl rfl fun hi => (hs.uninit hi).1
  unfold nextScan
  split
  · exact activityOk_of_scan rfl hlock (hs' _ _) hinited h1 hm he
  · split
    · rename_i hlt
      exact activityOk_of_scan rfl hlock (hs' _ _) hinited (Nat.le_add_left 1 m) hlt he
    · exact activityOk_of_idle rfl hlock (hs' _ _)

/-- The block's own step keeps the invariant. -/
theorem OwnEffect.inv {s t : State} (h : Inv s) (eff : OwnEffect s t) : Inv t where
  cfgValid := (cfg_kept s.cfg).keeps_ownEffect eff rfl ▸ h.cfgValid
  bufferOk := bufferExact_kept.keeps_ownEffect eff h.bufferOk
  portOk hsome := by
    obtain hframe | ⟨hframe, hrx⟩ := eff.port
    · simp [hframe] at hsome
    · exact hrx.trans (h.portOk (hframe ▸ hsome))
  traceOk := ownEffect_traceLegal (q := s.sched) (b := s.arb) h eff
  activityOk := by
    cases eff with
    | wait _ _ _ eq => exact eq ▸ h.activityOk
    | pass ready eq => exact eq ▸ passStart_activityOk h ready
    | whole f hact _ eq => exact runFrame_activityOk h hact eq
    | phased f hact hframe eq => exact eq ▸ beginFrame_activityOk h hact hframe
    | command k todo hact eq => exact cmdStep_activityOk h hact eq
    | row m r hact eq => exact rowStep_activityOk h hact eq

/-! ## The invariant -/

/-- After reset every register is 0, and the block is idle (R241). -/
theorem settled_resetOf (p : Config) : Settled (State.resetOf p) where
  nLeNmax := Nat.zero_le _
  nPositive hi := absurd hi Bool.false_ne_true
  offBounds := ⟨le_rfl, le_rfl⟩
  cntBounds := ⟨le_rfl, id⟩
  dirAgrees := ⟨rfl, rfl⟩
  lenMultiple := rfl
  uninit _ := ⟨rfl, rfl, rfl, rfl⟩

/-- Settles O45: the reset state is idle, settled and empty. -/
theorem resetStateIsInvariant : Obligations.ResetStateIsInvariant := fun p hvalid =>
  ⟨hvalid, ⟨rfl, Nat.zero_le _⟩, fun _ => rfl, List.forall_mem_nil _, activityOk_of_idle rfl rfl (settled_resetOf p)⟩

/-- Settles O46, by what a step can do: a move of the world, the reset, or the block's own step. -/
theorem stepKeepsTheInvariant : Obligations.StepKeepsTheInvariant := by
  intro s t h hstep
  obtain ⟨hvalid, eff⟩ := step_cases hstep
  cases eff with
  | tick rest _ eq => exact eq ▸ (h.sched rest s.arb).tick
  | byte b last rest _ hready eq => exact eq ▸ (h.sched rest s.arb).receive b last hready
  | stall rest _ eq => exact eq ▸ h.sched rest s.arb
  | rst rest _ eq => exact eq ▸ (resetStateIsInvariant s.cfg hvalid).sched rest s.arb
  | own q b _ eff => exact eff.inv (h.sched q b)

/-! ## The machine never stops -/

/-- A frame run whole from an idle block answers: a command's contents fit the buffer (R140). -/
theorem runFrame_total {s : State} (h : Inv s) (hact : s.act = .idle) (f : List Byte) :
    ∃ t, runFrame f s = .next t := by
  obtain ⟨-, hs⟩ := h.at_idle hact
  cases hdecode : decode f with
  | error r => exact ⟨_, runFrame_of_rejected ⟨r, hdecode⟩ s⟩
  | ok i =>
    rw [runFrame_of_decode hdecode]
    cases hplan : plan i (takeFrame s) with
    | error e => exact ⟨_, exec_of_plan_error hplan⟩
    | ok kp =>
      rw [exec_of_plan hplan]
      exact finish_total (plan_contentsFit (s := takeFrame s) h.cfgValid hs.nLeNmax hplan)

theorem idleStep_total {s : State} (h : Inv s) (hact : s.act = .idle) (c : Choice) : ∃ t, idleStep c s = .next t := by
  unfold idleStep
  split
  · split
    · exact ⟨_, rfl⟩
    · unfold startCommand
      split
      · exact ⟨_, rfl⟩
      · exact runFrame_total h hact _
  · split <;> exact ⟨_, rfl⟩

/-- A command in progress goes on, for its phases come to an end. -/
theorem cmdStep_total {k : CmdKind} {todo : List Phase} {s : State} (h : Inv s) (hact : s.act = .cmd k todo) :
    ∃ t, cmdStep k todo s = .next t := by
  obtain ⟨-, t, hfinish⟩ := h.commanding hact
  cases todo with
  | nil => exact ⟨_, rfl⟩
  | cons p rest =>
    rw [← finish_act (p :: rest) s (.cmd k rest), finish_cons, andThen_eq_next] at hfinish
    obtain ⟨u, hphase, -⟩ := hfinish
    exact ⟨u, hphase⟩

/-- The block's own step answers, whatever the choice: every read of a pass finds its byte (R222). -/
theorem ownStep_total {s : State} (h : Inv s) (c : Choice) : ∃ t, ownStep c s = .next t := by
  unfold ownStep
  split
  · exact idleStep_total h ‹_› c
  · exact cmdStep_total h ‹_›
  · rename_i m r _
    obtain ⟨d, hread⟩ := fbRead_total s h.bufferOk.1 (scanIndex s.e m r)
    exact ⟨_, rowStep_of_read hread⟩

theorem freeStep_total {s : State} (h : Inv s) : ∃ t, freeStep s = .next t := by
  unfold freeStep
  split
  · exact ownStep_total (h.sched s.sched (s.arb + 1)) _
  · exact ownStep_total h _

/-- Settles O47: a move of the world always answers, and so does the block's own step. -/
theorem invariantStatesNeverStop : Obligations.InvariantStatesNeverStop := by
  intro s h
  rw [step, if_pos h.cfgValid, scheduledStep]
  split
  · exact freeStep_total h
  · rename_i mv rest _
    cases mv with
    | tick | stall | rst => exact ⟨_, rfl⟩
    | run c => exact ownStep_total (h.sched rest s.arb) c
    | byte b last =>
      rw [applyMove, offerByte]
      split
      · exact ⟨_, rfl⟩
      · exact freeStep_total (h.sched _ s.arb)

end Sys2Proof.Machine
end
